-- ==== Sys2Proof/Word.lean ====
section
/-! DEFINITION. The machine's two kinds of element: the byte and the character code. -/

namespace Sys2Proof

/-- A cell of the tape, an element of the input or of the output: an unsigned 8-bit value, 0 to 255
(00_scope.md R7, R9). Its arithmetic wraps modulo 256 (41_dispatch_and_data.md R109). -/
abbrev Byte := BitVec 8

/-- A character of the program: a natural number (30_encoding.md R80). Its width `CHAR_W` is an open
parameter (00_scope.md R8), so it is no bit vector of a fixed width. -/
abbrev Code := Nat

end Sys2Proof
end

