-- ==== Sys2Proof/Machine/Flags.lean ====
section
/-! DEFINITION. Cell arithmetic and the one condition. The machine has no flags and no condition codes
(10_state.md R30): no instruction writes one, and `[` and `]` test the cell itself. -/

namespace Sys2Proof.Machine

/-- `(v + 1) mod 256` (40_tape_ops.md R92, 41_dispatch_and_data.md R109). -/
def byteInc (v : Byte) : Byte := v + 1

/-- `(v - 1) mod 256` (40_tape_ops.md R93, 41_dispatch_and_data.md R109). -/
def byteDec (v : Byte) : Byte := v - 1

/-- The condition of `[` and `]`: the cell equals zero (43_control_flow.md R140). -/
def isZero (v : Byte) : Bool := v == 0

/-- The check of `set_cell`: `0 <= value <= 255` (40_tape_ops.md R94). -/
def inByteRange (v : Int) : Bool := decide (0 ≤ v) && decide (v ≤ 255)

end Sys2Proof.Machine
end

