-- ==== Sys2Proof/Config.lean ====
section
/-! DEFINITION. The constants of the hardware and the defaults of its open parameters. The spec leaves
no result undefined, so there is no free value here. -/

namespace Sys2Proof

/-- Tape length at reset, in cells (00_scope.md R7, 10_state.md R22). -/
def Config.initialLen : Nat := 4

/-- The least width of a character (00_scope.md R8, 92_eei_decisions.md D3). -/
def Config.minCharW : Nat := 7

/-- The default of the open parameter `CHAR_W` (00_scope.md R8, 92_eei_decisions.md D3). -/
def Config.defaultCharW : Nat := 8

/-- The default of the open parameter `TAPE_CAP`: infinity (00_scope.md R8, 92_eei_decisions.md D4). -/
def Config.defaultTapeCap : Option Nat := none

end Sys2Proof
end

