-- ==== Sys2Proof/Syntax.lean ====
section
/-! DEFINITION. The instructions: one constructor per row of spec/opcode_table.json. -/

namespace Sys2Proof

/-- The nine actions a character can decode to (30_encoding.md R73). No instruction has an explicit
operand (R72). -/
inductive Instr where
  /-- `>`, row RIGHT (41_dispatch_and_data.md R104). -/
  | right
  /-- `<`, row LEFT (41_dispatch_and_data.md R105). -/
  | left
  /-- `+`, row INC (41_dispatch_and_data.md R106). -/
  | inc
  /-- `-`, row DEC (41_dispatch_and_data.md R107). -/
  | dec
  /-- `.`, row OUT (42_io.md R115). -/
  | out
  /-- `,`, row IN (42_io.md R116). -/
  | inp
  /-- `[`, row JZ (43_control_flow.md R130). -/
  | jz
  /-- `]`, row JNZ (43_control_flow.md R131). -/
  | jnz
  /-- Any other character, row SKIP (41_dispatch_and_data.md R108). It carries the character's code,
  which has no effect, so that the encoder can give the character back (DESIGN CHOICE, log 18, safe). -/
  | skip (c : Code)
  deriving DecidableEq, Repr

end Sys2Proof
end

