-- ==== Sys2Proof/Decode.lean ====
section
/-! DEFINITION. The decoder (30_encoding.md R74, R79), the encoder, and the host's view of the decoder.
The operators' codes are ASCII, which the spec supplies from general knowledge (PRESUMED, log 9, unsafe
for a character set that is not ASCII-compatible). -/

namespace Sys2Proof

/-- The eight operator rows of spec/opcode_table.json: code and instruction (30_encoding.md R73). -/
def operatorTable : List (Code × Instr) :=
  [(0x3E, .right), (0x3C, .left), (0x2B, .inc), (0x2D, .dec),
   (0x2E, .out), (0x2C, .inp), (0x5B, .jz), (0x5D, .jnz)]

/-- Whether a code is one of the eight operators' (30_encoding.md R73). -/
def isOperatorCode (c : Code) : Bool := operatorTable.any (fun row => row.1 == c)

/-- "compare the character with the eight `match` values, take the row that is equal, else the default
row" (30_encoding.md R79). -/
def decodeOp (c : Code) : Instr :=
  match operatorTable.find? (fun row => row.1 == c) with
  | some row => row.2
  | none => .skip c

/-- The field `op = char[CHAR_W-1:0]` of the one format (30_encoding.md R70): all of a character, and
the low `CHAR_W` bits of a program element that is wider (DEDUCED, log 10, unsafe). -/
def opField (w : Nat) (c : Code) : Code := c % 2 ^ w

/-- Decoding of one character of `w` bits. It is total and rejects nothing: there are no illegal and no
reserved encodings (30_encoding.md R74, R75). -/
def decode (w : Nat) (c : Code) : Instr := decodeOp (opField w c)

/-- The instructions of a program text: instruction `k` is character `k` (30_encoding.md R71). -/
def decodeProgram (w : Nat) (prog : List Code) : List Instr := prog.map (decode w)

/-- The character of an instruction (30_encoding.md R73). -/
def encode : Instr → Code
  | .right => 0x3E
  | .left => 0x3C
  | .inc => 0x2B
  | .dec => 0x2D
  | .out => 0x2E
  | .inp => 0x2C
  | .jz => 0x5B
  | .jnz => 0x5D
  | .skip c => c

/-- The width of the characters in which the host's table words are read: the spec's default, or the
row's own number of bits where that is larger (log 23). -/
def tableCharW (nbits : Nat) : Nat := max Config.defaultCharW nbits

/-- What the decoder reads from a row of `nbits` bits whose bits are `w`: one character, its bits above
`nbits` zero (30_encoding.md R71, log 23). It answers for every word, as every code decodes (R75). -/
def decodeTableWord (nbits w : Nat) : Option Instr :=
  some (decode (tableCharW nbits) (w % 2 ^ nbits))

end Sys2Proof
end

