-- ==== Sys2Proof/Machine/State.lean ====
section
/-! DEFINITION. The state of the core (10_state.md R20), the reasons a step can stop, and reset. -/

namespace Sys2Proof.Machine

/-- The three kinds of fault the hardware has (60_exceptions.md R150). A fault is no stop of the model:
its entry gives a next state whose status is `faulted` (R156, log 5). -/
inductive FaultKind where
  /-- `<` at cursor 0 (60_exceptions.md R151). -/
  | negativeTapePointer
  /-- `set_cell` with a value outside 0..255 (60_exceptions.md R153). -/
  | invalidByteValue
  /-- A bracket scan ran off an end of the program (60_exceptions.md R152). -/
  | unmatchedBracket
  deriving DecidableEq, Repr

/-- The status of a run (10_state.md R33). -/
inductive Status where
  | running
  | halted
  | faulted (k : FaultKind)
  deriving DecidableEq, Repr

/-- The phase of the tick refinement (10_state.md R35). -/
inductive Phase where
  | fetch
  | scanF
  | scanB
  deriving DecidableEq, Repr

/-- The arguments of a run and the open parameters: fixed before the first step and constant during it
(10_state.md R36, 00_scope.md R8). The spec does not count them as state; they stand in State because a
step is given its state alone (DESIGN CHOICE, log 1, safe). -/
structure RunArgs where
  /-- `prog`; `PLEN` is its length. -/
  prog : List Code
  /-- `input`; `ILEN` is its length. Its elements are bytes (42_io.md R117). -/
  input : List Byte
  /-- `CHAR_W`. -/
  charW : Nat
  /-- `TAPE_CAP`; `none` is infinity. -/
  tapeCap : Option Nat
  deriving DecidableEq, Repr

/-- The Tape (10_state.md R21 to R24). -/
structure Tape where
  /-- The cells that do not read 0, as (address, byte), addresses strictly rising. An unlisted cell
  reads 0, the value every cell holds from its creation (10_state.md R21, log 4). -/
  cells : List Host.Cell
  /-- `len`, the number of cells. -/
  len : Nat
  /-- `cursor`. -/
  cursor : Nat
  deriving DecidableEq, Repr

/-- The state of the core. -/
structure State where
  /-- The run's arguments; no step writes them. -/
  args : RunArgs
  /-- The Tape: `cells`, `len`, `cursor`. -/
  tape : Tape
  /-- `ip` (10_state.md R26). -/
  ip : Nat
  /-- `input_cursor` (10_state.md R28). -/
  inputCursor : Nat
  /-- `output`, first byte first (10_state.md R29). -/
  output : List Byte
  /-- `status` (10_state.md R33). -/
  status : Status
  /-- `phase` of the tick refinement (10_state.md R35). -/
  phase : Phase
  /-- `sp`, the scan pointer of the tick refinement (10_state.md R35). -/
  sp : Nat
  /-- `depth`, the nesting counter of the tick refinement (10_state.md R35). -/
  depth : Nat
  deriving DecidableEq, Repr

/-- Why the model stops with a fault. None of these is a fault of the hardware: see `FaultKind`. -/
inductive Fault where
  /-- A cell access at or beyond `len`, which is not defined (00_scope.md R10). Raised by every meaning
  that reads or writes the current cell, only where the cursor is outside the tape, which 10_state.md R24
  excludes. Safe (log 6). -/
  | cellOutOfRange
  deriving DecidableEq, Repr

/-- Why the model gives a step no meaning. -/
inductive Refusal where
  /-- An instruction without a meaning yet. Raised by no arm of exec. Safe. -/
  | notModelled (mnemonic : String)
  /-- A growth beyond a finite `TAPE_CAP`, which the model must refuse (20_memory.md R64, U8). Raised by
  `>` alone, never under the default of infinity. Safe (log 7). -/
  | tapeCapExceeded
  deriving DecidableEq, Repr

/-- The answer of a Tape operation (40_tape_ops.md). -/
inductive TapeOutcome (α : Type) where
  /-- The operation completed. -/
  | done (a : α)
  /-- The operation failed and changed nothing (40_tape_ops.md R96 (c)). -/
  | raises (k : FaultKind)
  /-- There is no cell at the address (log 6). -/
  | noCell
  /-- The tape would grow beyond `TAPE_CAP` (20_memory.md R64, log 7). -/
  | overCap
  deriving DecidableEq, Repr

/-- The result of a bracket scan (00_scope.md R10). -/
inductive ScanResult where
  | found (j : Nat)
  | unmatched
  deriving DecidableEq, Repr

/-- The result of a run that ended (70_reset_and_hazards.md R184). -/
inductive RunResult where
  | ok (output : List Byte)
  | err (k : FaultKind)
  deriving DecidableEq, Repr

/-- A fresh Tape: four cells, all 0, cursor 0 (10_state.md R38). -/
def Tape.fresh : Tape := { cells := [], len := Config.initialLen, cursor := 0 }

/-- The arguments before a host has presented any: no program, no input, the open parameters at their
defaults (DESIGN CHOICE, log 2, unsafe). -/
def RunArgs.absent : RunArgs :=
  { prog := [], input := [], charW := Config.defaultCharW, tapeCap := Config.defaultTapeCap }

/-- The machine right after reset (10_state.md R38, 70_reset_and_hazards.md R181). -/
def State.reset : State :=
  { args := RunArgs.absent
    tape := Tape.fresh
    ip := 0
    inputCursor := 0
    output := []
    status := .running
    phase := .fetch
    sp := 0
    depth := 0 }

end Sys2Proof.Machine
end

