-- ==== Sys2Proof/Machine/Ops.lean ====
section
/-! DEFINITION. The named operations over memory and over the machine's registers, fault entry among them. -/

namespace Sys2Proof.Machine

/-! ### Memory: the cells as a list in canonical form (log 4) -/

/-- What an unlisted cell reads as: 0, the value of every cell from its creation (10_state.md R21). -/
def Memory.unlisted : Byte := 0

/-- The canonical form: addresses strictly rising, no entry equal to what an unlisted cell reads as. -/
abbrev Memory.wf (m : List Host.Cell) : Prop :=
  m.Pairwise (fun x y => x.1 < y.1) ∧ ∀ x ∈ m, x.2 ≠ Memory.unlisted

/-- The byte at an address. -/
def Memory.read : List Host.Cell → Nat → Byte
  | [], _ => Memory.unlisted
  | x :: m, a => if x.1 = a then x.2 else Memory.read m a

/-- The entry of a byte: none where the byte is what an unlisted cell reads as. -/
def Memory.entry (a : Nat) (v : Byte) : List Host.Cell :=
  if v = Memory.unlisted then [] else [(a, v)]

/-- Writing a byte: the entries below, the new entry, the entries above. -/
def Memory.write (m : List Host.Cell) (a : Nat) (v : Byte) : List Host.Cell :=
  m.filter (fun x => decide (x.1 < a)) ++ Memory.entry a v ++ m.filter (fun x => decide (a < x.1))

/-- The entries below an address: what is at and beyond it reads 0. -/
def Memory.below (n : Nat) (m : List Host.Cell) : List Host.Cell :=
  m.filter (fun x => decide (x.1 < n))

/-! ### The Tape's cells -/

/-- `MemRead(a, 1)`, defined for `a < len` (00_scope.md R10, log 6). -/
def Tape.memRead (t : Tape) (a : Nat) : TapeOutcome Byte :=
  if a < t.len then .done (Memory.read t.cells a) else .noCell

/-- `MemWrite(a, 1, v)`, defined for `a < len` (00_scope.md R10, log 6). -/
def Tape.memWrite (t : Tape) (a : Nat) (v : Byte) : TapeOutcome Tape :=
  if a < t.len then .done { t with cells := Memory.write t.cells a v } else .noCell

/-- `Grow()`: the length doubles and every new cell is 0 (20_memory.md R58). -/
def Tape.grow (t : Tape) : Tape :=
  { t with cells := Memory.below t.len t.cells, len := 2 * t.len }

/-- Whether a tape of `n` cells is within `TAPE_CAP` (20_memory.md R64, log 7). -/
def fitsCap (cap : Option Nat) (n : Nat) : Bool :=
  match cap with
  | none => true
  | some c => decide (n ≤ c)

/-- `cells` as the sequence of `len` bytes that 10_state.md R21 describes. -/
def Tape.sequence (t : Tape) : List Byte := (List.range t.len).map (Memory.read t.cells)

/-! ### The Engine's registers -/

/-- `PLEN` (00_scope.md R8). -/
def State.plen (s : State) : Nat := s.args.prog.length

/-- `ip <- n`. -/
def State.goto (s : State) (n : Nat) : State := { s with ip := n }

/-- The dispatch loop's uniform advance by 1 (41_dispatch_and_data.md R100). -/
def State.advance (s : State) : State := s.goto (s.ip + 1)

/-- The Tape after an operation of its own. -/
def State.withTape (s : State) (t : Tape) : State := { s with tape := t }

/-- Append one byte to the output; an append always succeeds (20_memory.md R54). -/
def State.emit (s : State) (v : Byte) : State := { s with output := s.output ++ [v] }

/-- `input_cursor <- input_cursor + 1` (10_state.md R28). -/
def State.advanceInput (s : State) : State := { s with inputCursor := s.inputCursor + 1 }

/-- `status <- HALTED`, all that the halting step changes (41_dispatch_and_data.md R101). -/
def State.halt (s : State) : State := { s with status := .halted }

/-- Fault entry, `raise K`: `status <- FAULTED(K)` and nothing else changes (60_exceptions.md R156, log 5).
There is no return from a fault (R160): only a new run, `State.present`, leaves it. -/
def State.raise (s : State) (k : FaultKind) : State := { s with status := .faulted k }

/-- The scan registers of the tick refinement (10_state.md R35). -/
def State.setScan (s : State) (phase : Phase) (sp depth : Nat) : State :=
  { s with phase := phase, sp := sp, depth := depth }

/-- `phase <- FETCH` (43_control_flow.md R135, R136). -/
def State.endScan (s : State) : State := { s with phase := .fetch }

/-- Reset with the host's arguments: the beginning of `run(prog, input)` (70_reset_and_hazards.md R180,
R181). Nothing of an earlier run is left (10_state.md R39). -/
def State.present (a : RunArgs) : State := { State.reset with args := a }

/-- The result of a run whose status is terminal (70_reset_and_hazards.md R184). -/
def State.result (s : State) : Option RunResult :=
  match s.status with
  | .running => none
  | .halted => some (.ok s.output)
  | .faulted k => some (.err k)

/-- The numeric code of a status (10_state.md R33, 60_exceptions.md R154, log 15). -/
def Status.code : Status → Nat
  | .running => 0
  | .faulted .negativeTapePointer => 1
  | .faulted .invalidByteValue => 2
  | .faulted .unmatchedBracket => 3
  | .halted => 4

/-- Terminal statuses are absorbing (10_state.md R33). -/
def Status.terminal : Status → Bool
  | .running => false
  | .halted => true
  | .faulted _ => true

/-! ### Invoking the Tape -/

/-- An instruction invokes a Tape operation: a completed one goes on, a failed one is fault entry
(41_dispatch_and_data.md R105 "propagates"), an access without a cell and a growth beyond the cap stop. -/
def State.invoke {α : Type} (s : State) (r : TapeOutcome α)
    (k : α → Host.Outcome State Fault Refusal) : Host.Outcome State Fault Refusal :=
  match r with
  | .done a => k a
  | .raises f => .next (s.raise f)
  | .noCell => .fault .cellOutOfRange
  | .overCap => .refused .tapeCapExceeded

/-- Transitions iterated `n` times, stopping at the first fault or refusal. `n` is the model's fuel and no
part of the machine (41_dispatch_and_data.md R110). -/
def iterate (f : State → Host.Outcome State Fault Refusal) :
    Nat → State → Host.Outcome State Fault Refusal
  | 0, s => .next s
  | n + 1, s =>
    match f s with
    | .next s' => iterate f n s'
    | .fault r => .fault r
    | .refused r => .refused r

end Sys2Proof.Machine
end

