-- ==== Sys2Proof/Machine/Operands.lean ====
section
/-! DEFINITION. The operand forms. All are implicit (30_encoding.md R72): the character at `ip`, the cell at
`cursor` (20_memory.md R55), the next input byte, and the partner of a bracket. -/

namespace Sys2Proof.Machine

/-- `Fetch(ip)`: the character at `ip`, none where `ip >= PLEN` (00_scope.md R10). -/
def State.fetch (s : State) : Option Code := s.args.prog[s.ip]?

/-- The program as instructions (30_encoding.md R71). -/
def State.program (s : State) : List Instr := decodeProgram s.args.charW s.args.prog

/-- The address of every tape access: cursor indirect, no offset (20_memory.md R55). -/
def Tape.address (t : Tape) : Nat := t.cursor

/-- The byte `,` stores: the input byte at `input_cursor`, or 0 where the input is exhausted
(42_io.md R116, 20_memory.md R53). -/
def State.inputByte (s : State) : Byte :=
  if s.args.input.length ≤ s.inputCursor then 0 else s.args.input.getD s.inputCursor 0

/-! ### The bracket scans -/

/-- The nesting counter after a scanned character: the kind that closes decrements it, the kind that opens
increments it, every other character leaves it (43_control_flow.md R125, R126, R129 (b)). -/
def nest (opens closes : Instr) (d : Nat) (i : Instr) : Nat :=
  if i = closes then d - 1 else if i = opens then d + 1 else d

/-- A scan along a list of characters, with the counter at `d` before its first: how many characters it
passes before the one that brings the counter to 0. -/
def scan (opens closes : Instr) : Nat → List Instr → Option Nat
  | _, [] => none
  | d, i :: is =>
    if nest opens closes d i = 0 then some 0
    else (scan opens closes (nest opens closes d i) is).map (· + 1)

/-- `MatchFwd(i)`: the scan of what follows character `i`, "a nesting counter starting at 1"
(43_control_flow.md R125, R127). -/
def matchFwd (p : List Instr) (i : Nat) : ScanResult :=
  match scan .jz .jnz 1 (p.drop (i + 1)) with
  | some k => .found (i + 1 + k)
  | none => .unmatched

/-- `MatchBwd(i)`: the scan, nearest first, of what precedes character `i`, "symmetric"
(43_control_flow.md R126, R128). -/
def matchBwd (p : List Instr) (i : Nat) : ScanResult :=
  match scan .jnz .jz 1 (p.take i).reverse with
  | some k => .found (i - 1 - k)
  | none => .unmatched

/-- What a taken jump does: `ip` lands just past the partner, or fault entry (43_control_flow.md R130, R131). -/
def State.jump (s : State) (r : ScanResult) : State :=
  match r with
  | .found j => s.goto (j + 1)
  | .unmatched => s.raise .unmatchedBracket

end Sys2Proof.Machine
end

