-- ==== Sys2Proof/Machine/TapeOps.lean ====
section
/-! DEFINITION. The Tape's six operations (40_tape_ops.md R90 to R95), each on its own: the Engine invokes
them, and the Tape is also a block that can be used alone (R97, 92_eei_decisions.md D21). -/

namespace Sys2Proof.Machine

/-- `increment_pointer()` (40_tape_ops.md R90). A growth beyond `TAPE_CAP` is refused (20_memory.md R64). -/
def Tape.incrementPointer (cap : Option Nat) (t : Tape) : TapeOutcome Tape :=
  if t.len ≤ t.cursor + 1 then
    if fitsCap cap (2 * t.len) then .done { t.grow with cursor := t.cursor + 1 } else .overCap
  else .done { t with cursor := t.cursor + 1 }

/-- `decrement_pointer()` (40_tape_ops.md R91). -/
def Tape.decrementPointer (t : Tape) : TapeOutcome Tape :=
  if t.cursor = 0 then .raises .negativeTapePointer else .done { t with cursor := t.cursor - 1 }

/-- `get_cell()` (40_tape_ops.md R95). -/
def Tape.getCell (t : Tape) : TapeOutcome Byte := t.memRead t.address

/-- A read-modify-write of the current cell (20_memory.md R67). -/
def Tape.modifyCell (t : Tape) (f : Byte → Byte) : TapeOutcome Tape :=
  match t.getCell with
  | .done v => t.memWrite t.address (f v)
  | .raises k => .raises k
  | .noCell => .noCell
  | .overCap => .overCap

/-- `increment_cell()` (40_tape_ops.md R92). -/
def Tape.incrementCell (t : Tape) : TapeOutcome Tape := t.modifyCell byteInc

/-- `decrement_cell()` (40_tape_ops.md R93). -/
def Tape.decrementCell (t : Tape) : TapeOutcome Tape := t.modifyCell byteDec

/-- `set_cell(value)`: the value is a mathematical integer, and its check comes before the write
(40_tape_ops.md R94, log 17). -/
def Tape.setCell (t : Tape) (value : Int) : TapeOutcome Tape :=
  if inByteRange value then t.memWrite t.address (BitVec.ofInt 8 value) else .raises .invalidByteValue

/-- The operations the standalone Tape offers, and no other (40_tape_ops.md R97, log 21). -/
inductive TapeOp where
  | incrementPointer
  | decrementPointer
  | incrementCell
  | decrementCell
  | setCell (value : Int)
  | getCell
  deriving DecidableEq, Repr

/-- An operation that answers no value. -/
def TapeOutcome.silent : TapeOutcome Tape → TapeOutcome (Tape × Option Byte)
  | .done t => .done (t, none)
  | .raises k => .raises k
  | .noCell => .noCell
  | .overCap => .overCap

/-- One operation of the standalone Tape: the Tape after it and the value it returns, if any. -/
def Tape.perform (cap : Option Nat) (t : Tape) : TapeOp → TapeOutcome (Tape × Option Byte)
  | .incrementPointer => (t.incrementPointer cap).silent
  | .decrementPointer => t.decrementPointer.silent
  | .incrementCell => t.incrementCell.silent
  | .decrementCell => t.decrementCell.silent
  | .setCell v => (t.setCell v).silent
  | .getCell =>
    match t.getCell with
    | .done v => .done (t, some v)
    | .raises k => .raises k
    | .noCell => .noCell
    | .overCap => .overCap

/-- The Tape after `n` times one operation, none where one of them does not complete. -/
def Tape.performMany (cap : Option Nat) (op : TapeOp) : Nat → Tape → Option Tape
  | 0, t => some t
  | n + 1, t =>
    match t.perform cap op with
    | .done r => Tape.performMany cap op n r.1
    | .raises _ => none
    | .noCell => none
    | .overCap => none

end Sys2Proof.Machine
end

