-- ==== Sys2Proof/Machine/Control.lean ====
section
/-! DEFINITION. The control-flow instructions `[` and `]` (43_control_flow.md R130, R131). One step holds a
whole scan (92_eei_decisions.md D1, log 11). -/

namespace Sys2Proof.Machine

/-- `[` JZ (43_control_flow.md R130). -/
def execJz (s : State) : Host.Outcome State Fault Refusal :=
  s.invoke s.tape.getCell fun v =>
    .next (if isZero v then s.jump (matchFwd s.program s.ip) else s.advance)

/-- `]` JNZ (43_control_flow.md R131). -/
def execJnz (s : State) : Host.Outcome State Fault Refusal :=
  s.invoke s.tape.getCell fun v =>
    .next (if isZero v then s.advance else s.jump (matchBwd s.program s.ip))

end Sys2Proof.Machine
end

