-- ==== Sys2Proof/Machine/Data.lean ====
section
/-! DEFINITION. The data instructions `>` `<` `+` `-` and the inert character
(41_dispatch_and_data.md R104 to R108). -/

namespace Sys2Proof.Machine

/-- `>` RIGHT (41_dispatch_and_data.md R104). -/
def execRight (s : State) : Host.Outcome State Fault Refusal :=
  s.invoke (s.tape.incrementPointer s.args.tapeCap) fun t => .next (s.withTape t).advance

/-- `<` LEFT (41_dispatch_and_data.md R105). -/
def execLeft (s : State) : Host.Outcome State Fault Refusal :=
  s.invoke s.tape.decrementPointer fun t => .next (s.withTape t).advance

/-- `+` INC (41_dispatch_and_data.md R106). -/
def execInc (s : State) : Host.Outcome State Fault Refusal :=
  s.invoke s.tape.incrementCell fun t => .next (s.withTape t).advance

/-- `-` DEC (41_dispatch_and_data.md R107). -/
def execDec (s : State) : Host.Outcome State Fault Refusal :=
  s.invoke s.tape.decrementCell fun t => .next (s.withTape t).advance

/-- SKIP, every other character, whatever its code (41_dispatch_and_data.md R108). -/
def execSkip (_c : Code) (s : State) : Host.Outcome State Fault Refusal := .next s.advance

end Sys2Proof.Machine
end

