-- ==== Sys2Proof/Machine/Io.lean ====
section
/-! DEFINITION. The I/O instructions `.` and `,` (42_io.md R115, R116). -/

namespace Sys2Proof.Machine

/-- `.` OUT (42_io.md R115). -/
def execOut (s : State) : Host.Outcome State Fault Refusal :=
  s.invoke s.tape.getCell fun v => .next (s.emit v).advance

/-- `,` IN: `set_cell` of the next input byte, and the input cursor always advances (42_io.md R116). -/
def execInp (s : State) : Host.Outcome State Fault Refusal :=
  s.invoke (s.tape.setCell s.inputByte.toNat) fun t => .next (s.withTape t).advanceInput.advance

end Sys2Proof.Machine
end

