-- ==== Sys2Proof/Machine/Dispatch.lean ====
section
/-! DEFINITION. One arm per instruction (41_dispatch_and_data.md R100). -/

namespace Sys2Proof.Machine

-- The case of a decoded character in Step, 41_dispatch_and_data.md R100.
def exec (i : Instr) (s : State) : Host.Outcome State Fault Refusal :=
  match i with
  | .right => Sys2Proof.Machine.execRight s
  | .left => Sys2Proof.Machine.execLeft s
  | .inc => Sys2Proof.Machine.execInc s
  | .dec => Sys2Proof.Machine.execDec s
  | .out => Sys2Proof.Machine.execOut s
  | .inp => Sys2Proof.Machine.execInp s
  | .jz => Sys2Proof.Machine.execJz s
  | .jnz => Sys2Proof.Machine.execJnz s
  | .skip c => Sys2Proof.Machine.execSkip c s

end Sys2Proof.Machine
end

