-- ==== Sys2Proof/Machine/Step.lean ====
section
/-! DEFINITION. One step: one iteration of the dispatch loop (41_dispatch_and_data.md R100), and the host's
way to place one instruction where the step fetches. -/

namespace Sys2Proof.Machine

/-- `Step`: halting where `ip` is outside
the program (41_dispatch_and_data.md R101, log 13), else the meaning of the character at `ip`. It is the
identity on a terminal status (10_state.md R33, log 14). It neither reads nor writes the scan registers,
which belong to the refinement alone (43_control_flow.md R133, log 11). -/
def step (s : State) : Host.Outcome State Fault Refusal :=
  match s.status with
  | .running =>
    match s.fetch with
    | none => .next s.halt
    | some c => exec (decode s.args.charW c) s
  | .halted => .next s
  | .faulted _ => .next s

/-- A program with one character placed at an index, inert characters of code 0 before it where the program
is shorter. -/
def placeCode (prog : List Code) (i : Nat) (c : Code) : List Code :=
  prog.take i ++ List.replicate (i - prog.length) 0 ++ [c] ++ prog.drop (i + 1)

/-- The state with one instruction of `nbits` bits where the next step fetches: at `ip`, in a run in
progress, its characters wide enough for it (log 3, log 23). -/
def State.withFetchWord (s : State) (nbits w : Nat) : State :=
  { s with
    args := { s.args with
      prog := placeCode s.args.prog s.ip (w % 2 ^ nbits)
      charW := max s.args.charW nbits }
    status := .running }

end Sys2Proof.Machine
end

