-- ==== Sys2Proof/Machine/Refine.lean ====
section
/-! DEFINITION. The tick refinement of 43_control_flow.md section 4 (R133 to R139): a bracket scan walks the
program one character a tick, in the scan registers `phase`, `sp`, `depth`. It is a transition of its own
beside `step`, which is the machine's (log 12). -/

namespace Sys2Proof.Machine

/-- The dispatch of a bracket whose jump is taken: the scan begins and `ip` stays on the bracket
(43_control_flow.md R134). -/
def State.beginScan (s : State) (phase : Phase) : State := s.setScan phase s.ip 1

/-- The end of a failing scan (43_control_flow.md R135, R136). -/
def State.failScan (s : State) : State := (s.raise .unmatchedBracket).endScan

/-- The end of a scan that found the partner at `j` (43_control_flow.md R135, R136). -/
def State.landScan (s : State) (j : Nat) : State := (s.goto (j + 1)).endScan

/-- A tick in `FETCH` at an instruction: `Step`, but for the two taken jumps (43_control_flow.md R134). -/
def tickDispatch (i : Instr) (s : State) : Host.Outcome State Fault Refusal :=
  match i with
  | .jz => s.invoke s.tape.getCell fun v => .next (if isZero v then s.beginScan .scanF else s.advance)
  | .jnz => s.invoke s.tape.getCell fun v => .next (if isZero v then s.advance else s.beginScan .scanB)
  | .right => exec .right s
  | .left => exec .left s
  | .inc => exec .inc s
  | .dec => exec .dec s
  | .out => exec .out s
  | .inp => exec .inp s
  | .skip c => exec (.skip c) s

/-- A tick in `FETCH` (43_control_flow.md R134). -/
def tickFetch (s : State) : Host.Outcome State Fault Refusal :=
  match s.fetch with
  | none => .next s.halt
  | some c => tickDispatch (decode s.args.charW c) s

/-- The state after a scan has looked at the character at `j`, with the counter at `d` then. -/
def State.scanned (s : State) (phase : Phase) (j d : Nat) : State :=
  if d = 0 then s.landScan j else s.setScan phase j d

/-- A tick in `SCANF` (43_control_flow.md R135). -/
def tickScanF (s : State) : State :=
  match s.program[s.sp + 1]? with
  | none => s.failScan
  | some i => s.scanned .scanF (s.sp + 1) (nest .jz .jnz s.depth i)

/-- A tick in `SCANB` (43_control_flow.md R136). A scan pointer outside the program, which R139 excludes,
counts as a scan that ran off it. -/
def tickScanB (s : State) : State :=
  if s.sp = 0 then s.failScan
  else
    match s.program[s.sp - 1]? with
    | none => s.failScan
    | some i => s.scanned .scanB (s.sp - 1) (nest .jnz .jz s.depth i)

/-- `Tick` (43_control_flow.md R134 to R136). -/
def tick (s : State) : Host.Outcome State Fault Refusal :=
  match s.status with
  | .running =>
    match s.phase with
    | .fetch => tickFetch s
    | .scanF => .next (tickScanF s)
    | .scanB => .next (tickScanB s)
  | .halted => .next s
  | .faulted _ => .next s

/-- What a taken jump costs beyond its dispatch: one tick per character examined, and the tick that finds
the end (43_control_flow.md R138). -/
def scanTicks (i toEnd : Nat) : ScanResult → Nat
  | .found j => (j - i) + (i - j)
  | .unmatched => toEnd

/-- The ticks of one step: 1, and those of the scan of a taken jump (43_control_flow.md R138). -/
def tickCost (s : State) : Nat :=
  match s.status, s.fetch, s.tape.getCell with
  | .running, some c, .done v =>
    if decode s.args.charW c = .jz ∧ isZero v = true then
      1 + scanTicks s.ip (s.plen - s.ip) (matchFwd s.program s.ip)
    else if decode s.args.charW c = .jnz ∧ isZero v = false then
      1 + scanTicks s.ip (1 + s.ip) (matchBwd s.program s.ip)
    else 1
  | _, _, _ => 1

end Sys2Proof.Machine
end

