-- ==== Sys2Proof/Machine/Run.lean ====
section
/-! DEFINITION. A whole run (41_dispatch_and_data.md R102, 70_reset_and_hazards.md R184, R185, log 20). -/

namespace Sys2Proof.Machine

/-- The run with arguments `a` ends with result `r`: some number of steps from its reset state leads to a
terminal status with that result. A run that never ends has no result (60_exceptions.md R159). -/
def Yields (a : RunArgs) (r : RunResult) : Prop :=
  ∃ n s, iterate step n (State.present a) = .next s ∧ s.result = some r

/-- The same, by the ticks of the refinement (43_control_flow.md R133). -/
def TickYields (a : RunArgs) (r : RunResult) : Prop :=
  ∃ n s, iterate tick n (State.present a) = .next s ∧ s.result = some r

/-- `IN` executed by the next step: 1, else 0. -/
def countsInp (s : State) : Nat :=
  match s.status, s.fetch with
  | .running, some c => if decode s.args.charW c = .inp then 1 else 0
  | _, _ => 0

/-- `OUT` executed by the next step: 1, else 0. -/
def countsOut (s : State) : Nat :=
  match s.status, s.fetch with
  | .running, some c => if decode s.args.charW c = .out then 1 else 0
  | _, _ => 0

/-- A count summed over the first `n` steps from a state. -/
def tally (count : State → Nat) : Nat → State → Nat
  | 0, _ => 0
  | n + 1, s =>
    match step s with
    | .next s' => count s + tally count n s'
    | .fault _ => 0
    | .refused _ => 0

/-- The largest value the cursor takes in a state and the `n` steps after it (20_memory.md R59). -/
def peakCursor : Nat → State → Nat
  | 0, s => s.tape.cursor
  | n + 1, s =>
    match step s with
    | .next s' => max s.tape.cursor (peakCursor n s')
    | .fault _ => s.tape.cursor
    | .refused _ => s.tape.cursor

/-- The growth schedule in closed form: the length of a tape whose largest cursor so far is `m`
(20_memory.md R59). -/
def scheduledLen (m : Nat) : Nat :=
  if m ≤ 3 then 4 else 2 ^ (Nat.log2 m + 1)

end Sys2Proof.Machine
end

