-- ==== Sys2Proof/WellFormed.lean ====
section
/-! DEFINITION. Which instructions a character of `w` bits can encode. -/

namespace Sys2Proof

/-- A character is at least `Config.minCharW` bits wide (00_scope.md R8), so that every operator fits. -/
def charWidthOk (w : Nat) : Bool := decide (Config.minCharW ≤ w)

/-- An inert character's code fits the width (30_encoding.md R80) and is no operator's (R73). -/
def inertCodeOk (w : Nat) (c : Code) : Bool := decide (c < 2 ^ w) && !isOperatorCode c

/-- Well-formedness of an instruction for characters of `w` bits. -/
def Instr.wf (w : Nat) : Instr → Bool
  | .right => charWidthOk w
  | .left => charWidthOk w
  | .inc => charWidthOk w
  | .dec => charWidthOk w
  | .out => charWidthOk w
  | .inp => charWidthOk w
  | .jz => charWidthOk w
  | .jnz => charWidthOk w
  | .skip c => charWidthOk w && inertCodeOk w c

end Sys2Proof
end

