-- ==== Sys2Proof/Safety.lean ====
section
/-! DEFINITION. What counts as a legal state and a well-formed program, in the terms the statements use. -/

namespace Sys2Proof.Machine

/-- Arguments a host may present: characters of the stated width, and a cap that holds the tape of reset
(00_scope.md R8, 30_encoding.md R80, log 22). The program need not be well-formed (R78). -/
structure RunArgs.Legal (a : RunArgs) : Prop where
  charW_ge : Config.minCharW ≤ a.charW
  chars_fit : ∀ c ∈ a.prog, c < 2 ^ a.charW
  cap_holds : fitsCap a.tapeCap Config.initialLen = true

/-- A legal Tape: `cells` in canonical form and of `len` cells, `len` a power of two times 4
(10_state.md R22), the cursor on a cell (R24). -/
structure Tape.Legal (t : Tape) : Prop where
  cells_wf : Memory.wf t.cells
  cells_below : ∀ x ∈ t.cells, x.1 < t.len
  len_doubled : ∃ k, t.len = Config.initialLen * 2 ^ k
  cursor_lt : t.cursor < t.len

/-- The invariant of the core at an instruction boundary: a legal Tape within the cap, `ip` in 0..PLEN
(10_state.md R26), `phase` FETCH (R35), legal arguments. -/
structure State.Legal (s : State) : Prop where
  args : s.args.Legal
  tape : s.tape.Legal
  within_cap : fitsCap s.args.tapeCap s.tape.len = true
  ip_le : s.ip ≤ s.plen
  boundary : s.phase = .fetch

/-- Programs whose brackets are "balanced, non-nested or arbitrarily nested" (00_scope.md R12). -/
inductive Balanced : List Instr → Prop where
  | nil : Balanced []
  | plain (i : Instr) (p : List Instr) : i ≠ .jz → i ≠ .jnz → Balanced p → Balanced (i :: p)
  | loop (body rest : List Instr) : Balanced body → Balanced rest →
      Balanced (.jz :: (body ++ .jnz :: rest))

/-- How many characters of one kind stand at the indices `lo` to `hi - 1` of a program. -/
def countBetween (p : List Instr) (i : Instr) (lo hi : Nat) : Nat := ((p.take hi).drop lo).count i

/-- 43_control_flow.md R125: among `prog[i+1 .. j]` the `]` outnumber the `[` by exactly one. -/
def ClosesFwd (p : List Instr) (i j : Nat) : Prop :=
  i < j ∧ j < p.length ∧
    countBetween p .jnz (i + 1) (j + 1) = countBetween p .jz (i + 1) (j + 1) + 1

/-- 43_control_flow.md R126: among `prog[j .. i-1]` the `[` outnumber the `]` by exactly one. -/
def ClosesBwd (p : List Instr) (i j : Nat) : Prop :=
  j < i ∧ i < p.length ∧
    countBetween p .jz j i = countBetween p .jnz j i + 1

/-- Two states that agree on every architectural element (10_state.md R20), whatever their scan registers. -/
def SameArch (s t : State) : Prop := s.setScan t.phase t.sp t.depth = t

/-- The registers of the tick refinement: mid-scan the run is in progress on a bracket of the program, `sp`
is inside it and `depth` is between 1 and one more than the characters scanned (43_control_flow.md R137,
R139). -/
structure State.ScanLegal (s : State) : Prop where
  running : s.phase ≠ .fetch → s.status = .running
  ip_lt : s.phase ≠ .fetch → s.ip < s.plen
  depth_pos : s.phase ≠ .fetch → 1 ≤ s.depth
  fwd : s.phase = .scanF → s.ip ≤ s.sp ∧ s.sp < s.plen ∧ s.depth ≤ 1 + (s.sp - s.ip)
  bwd : s.phase = .scanB → s.sp ≤ s.ip ∧ s.depth ≤ 1 + (s.ip - s.sp)

/-- Two states that differ in nothing but the number of zero cells at the right end of their tapes: both
tapes are legal and without a cap (10_state.md R22, 92_eei_decisions.md D25). -/
structure SameButLen (s t : State) : Prop where
  left_tape : s.tape.Legal
  right_tape : t.tape.Legal
  no_cap : s.args.tapeCap = none
  rest : s.withTape { s.tape with len := t.tape.len } = t

/-- Nothing of the tick refinement's registers changes (43_control_flow.md R133). -/
def State.sameScan (s t : State) : Prop := t.phase = s.phase ∧ t.sp = s.sp ∧ t.depth = s.depth

end Sys2Proof.Machine
end

