-- ==== Sys2Proof/Certificates/Slice0/Obligations.lean ====
section
/-! DEFINITION. The statements for the provers. A statement that rests on a choice of the spec's own (its
decisions D<n>) or of the model's (the log) says so. -/

open Sys2Proof Sys2Proof.Machine

/-! ### The step, reset, the decoder -/

/-- A step runs the decoded instruction (41_dispatch_and_data.md R100), halts outside the program (R101, the
spec's decision D24) and is the identity on a terminal status (10_state.md R33, decision D14). -/
def Obligations.StepRunsDecodedInstruction : Prop :=
  ∀ s : State,
    (s.status = .running → ∀ c, s.args.prog[s.ip]? = some c →
      step s = exec (decode s.args.charW c) s) ∧
    (s.status = .running → s.args.prog.length ≤ s.ip → step s = .next { s with status := .halted }) ∧
    (s.status ≠ .running → step s = .next s)

/-- What reset leaves, whatever the arguments of the run (10_state.md R38, 70_reset_and_hazards.md R181).
`status` and the scan registers rest on the spec's decision D20; the empty arguments of `State.reset` itself
are the model's choice (log 2) and no part of this. -/
def Obligations.ResetLeavesSpecValues : Prop :=
  ∀ s : State, s = State.reset ∨ (∃ a, s = State.present a) →
    s.tape.sequence = [0, 0, 0, 0] ∧ s.tape.len = 4 ∧ s.tape.cursor = 0 ∧ s.ip = 0 ∧
    s.inputCursor = 0 ∧ s.output = [] ∧ s.status = .running ∧ s.phase = .fetch ∧ s.sp = 0 ∧ s.depth = 0

/-- The invariant holds at reset and at the beginning of every run with legal arguments. That the arguments
of `State.reset` are legal rests on the model's choice of them (log 2). -/
def Obligations.ResetMeetsInvariant : Prop :=
  (State.reset.Legal ∧ State.reset.ScanLegal) ∧
  ∀ a : RunArgs, a.Legal → (State.present a).Legal ∧ (State.present a).ScanLegal

/-- The operators' codes and some inert neighbours decode as 30_encoding.md R73 and R75 say. The codes are
ASCII, from general knowledge (G1, log 9). -/
def Obligations.OperatorCodesDecode : Prop :=
  decode 8 0b00111110 = .right ∧ decode 8 0b00111100 = .left ∧ decode 8 0b00101011 = .inc ∧
  decode 8 0b00101101 = .dec ∧ decode 8 0b00101110 = .out ∧ decode 8 0b00101100 = .inp ∧
  decode 8 0b01011011 = .jz ∧ decode 8 0b01011101 = .jnz ∧
  decode 8 0x3D = .skip 0x3D ∧ decode 8 0x5C = .skip 0x5C ∧ decode 8 0xBE = .skip 0xBE ∧
  decode 8 0 = .skip 0

/-- Decode and encode agree in both directions, for characters of every allowed width: decoding the
character of a well-formed instruction gives it back, and every character decodes to a well-formed
instruction that encodes to it (30_encoding.md R74, R75, R79). -/
def Obligations.DecodeEncodeAgree : Prop :=
  ∀ w : Nat, Config.minCharW ≤ w →
    (∀ i : Instr, i.wf w = true → encode i < 2 ^ w ∧ decode w (encode i) = i) ∧
    (∀ c : Code, c < 2 ^ w → (decode w c).wf w = true ∧ encode (decode w c) = c)

/-! ### The Tape's operations -/

/-- `increment_pointer` (40_tape_ops.md R90): the cursor advances by 1, the tape doubles with zero cells
exactly where the new cursor is out of bounds (then it equals the old length), no cell changes. The
hypothesis on the cap is void under the default of infinity (20_memory.md R64). -/
def Obligations.IncrementPointerDoublesWhenOutOfBounds : Prop :=
  ∀ (cap : Option Nat) (t : Tape), t.cursor < t.len →
    (t.cursor + 1 = t.len → fitsCap cap (2 * t.len) = true) →
    ∃ u, t.incrementPointer cap = .done u ∧ u.cursor = t.cursor + 1 ∧
      (t.cursor + 1 < t.len → u.len = t.len ∧ u.sequence = t.sequence) ∧
      (t.len ≤ t.cursor + 1 → t.cursor + 1 = t.len ∧ u.len = 2 * t.len ∧
        u.sequence = t.sequence ++ List.replicate t.len 0)

/-- `Grow` (20_memory.md R58): what it does, that only `>` does it and exactly when the incremented cursor
equals the old length, that one doubling suffices, and that growth is never undone. -/
def Obligations.GrowDoublesAndOnlyRightGrows : Prop :=
  (∀ t : Tape, t.grow.len = 2 * t.len ∧ t.grow.sequence = t.sequence ++ List.replicate t.len 0) ∧
  ∀ (i : Instr) (s t : State), s.tape.cursor < s.tape.len → exec i s = .next t →
    (i = .right ∧ s.tape.cursor + 1 = s.tape.len →
      t.tape = { s.tape.grow with cursor := s.tape.cursor + 1 } ∧ t.tape.cursor < t.tape.len) ∧
    (¬(i = .right ∧ s.tape.cursor + 1 = s.tape.len) → t.tape.len = s.tape.len)

/-- `decrement_pointer` (40_tape_ops.md R91): it fails exactly at cursor 0, which ends the run, and else
moves the cursor by 1 and nothing more. -/
def Obligations.DecrementPointerStopsAtOrigin : Prop :=
  (∀ t : Tape, (t.cursor = 0 → t.decrementPointer = .raises .negativeTapePointer) ∧
    (t.cursor ≠ 0 → t.decrementPointer = .done { t with cursor := t.cursor - 1 })) ∧
  ∀ s : State, s.tape.cursor = 0 →
    ∃ t, exec .left s = .next t ∧ t.status = .faulted .negativeTapePointer ∧ t.tape = s.tape

/-- `increment_cell` and `decrement_cell` (40_tape_ops.md R92, R93): the cell at the cursor moves by 1 modulo
256, no other cell, cursor or length changes, and the two are inverse to each other. -/
def Obligations.CellArithmeticWraps : Prop :=
  ∀ t : Tape, t.cursor < t.len →
    (∃ u, t.incrementCell = .done u ∧ u.cursor = t.cursor ∧ u.len = t.len ∧
      ((Memory.read u.cells t.cursor).toNat : Int) =
        (((Memory.read t.cells t.cursor).toNat : Int) + 1) % 256 ∧
      (∀ a, a ≠ t.cursor → Memory.read u.cells a = Memory.read t.cells a) ∧
      ∃ w, u.decrementCell = .done w ∧ w.sequence = t.sequence) ∧
    (∃ u, t.decrementCell = .done u ∧ u.cursor = t.cursor ∧ u.len = t.len ∧
      ((Memory.read u.cells t.cursor).toNat : Int) =
        (((Memory.read t.cells t.cursor).toNat : Int) - 1) % 256 ∧
      (∀ a, a ≠ t.cursor → Memory.read u.cells a = Memory.read t.cells a) ∧
      ∃ w, u.incrementCell = .done w ∧ w.sequence = t.sequence)

/-- `set_cell` (40_tape_ops.md R94): it fails exactly outside 0..255, before any write (the spec's decision
D8), and else the cell at the cursor holds the value. -/
def Obligations.SetCellChecksBeforeWriting : Prop :=
  ∀ (t : Tape) (v : Int),
    (t.setCell v = .raises .invalidByteValue ↔ v < 0 ∨ 255 < v) ∧
    (t.cursor < t.len → 0 ≤ v → v ≤ 255 →
      ∃ u, t.setCell v = .done u ∧ u.cursor = t.cursor ∧ u.len = t.len ∧
        ((Memory.read u.cells t.cursor).toNat : Int) = v ∧
        ∀ a, a ≠ t.cursor → Memory.read u.cells a = Memory.read t.cells a)

/-- `get_cell` (40_tape_ops.md R95): the cell at the cursor, unsigned, no side effect, 0 on a fresh Tape. -/
def Obligations.GetCellReturnsCurrentCell : Prop :=
  (∀ (cap : Option Nat) (t : Tape), t.cursor < t.len →
    ∃ v, t.getCell = .done v ∧ t.sequence[t.cursor]? = some v ∧ v.toNat ≤ 255 ∧
      t.perform cap .getCell = .done (t, some v)) ∧
  Tape.fresh.getCell = .done 0

/-- The six operations together (40_tape_ops.md R96 (a) to (c)): the Tape stays legal, each changes only what
is its own, and exactly two can fail, on exactly these conditions. -/
def Obligations.TapeOperationsKeepTapeLegal : Prop :=
  ∀ (cap : Option Nat) (op : TapeOp) (t : Tape), t.Legal →
    (∀ u v, t.perform cap op = .done (u, v) →
      u.Legal ∧
      (u.len ≠ t.len → op = .incrementPointer) ∧
      (u.cursor ≠ t.cursor → op = .incrementPointer ∨ op = .decrementPointer) ∧
      (∀ a, Memory.read u.cells a ≠ Memory.read t.cells a →
        a = t.cursor ∧ (op = .incrementCell ∨ op = .decrementCell ∨ ∃ x, op = .setCell x))) ∧
    (∀ k, t.perform cap op = .raises k ↔
      (op = .decrementPointer ∧ t.cursor = 0 ∧ k = .negativeTapePointer) ∨
      (∃ x, op = .setCell x ∧ (x < 0 ∨ 255 < x) ∧ k = .invalidByteValue)) ∧
    t.perform cap op ≠ .noCell

/-- 40_tape_ops.md R96 (d), (e): 256 increments, or 256 decrements, restore the cell; a move right and back
restores the cursor. -/
def Obligations.FullTurnRestoresCell : Prop :=
  ∀ t : Tape, t.cursor < t.len →
    (∀ op, op = TapeOp.incrementCell ∨ op = TapeOp.decrementCell →
      ∃ u, t.performMany none op 256 = some u ∧ u.sequence = t.sequence ∧ u.cursor = t.cursor) ∧
    (∀ u w, t.incrementPointer none = .done u → u.decrementPointer = .done w → w.cursor = t.cursor)

/-- The growth schedule on the Tape (20_memory.md R59): after `n` moves right from a fresh Tape. -/
def Obligations.FreshTapeGrowthSchedule : Prop :=
  ∀ n : Nat, ∃ u, Tape.fresh.performMany none .incrementPointer n = some u ∧ u.cursor = n ∧
    u.len = scheduledLen n ∧ u.sequence = List.replicate u.len 0

/-! ### The instructions' results. Each also says where the instruction completes. -/

/-- `>` (41_dispatch_and_data.md R104): completes for every state in which the cap, if any, allows the growth
it needs. -/
def Obligations.RightMovesAndGrows : Prop :=
  ∀ s : State, s.tape.cursor < s.tape.len →
    (s.tape.cursor + 1 = s.tape.len → fitsCap s.args.tapeCap (2 * s.tape.len) = true) →
    ∃ u : Tape, exec .right s = .next { s with tape := u, ip := s.ip + 1 } ∧
      u.cursor = s.tape.cursor + 1 ∧
      (s.tape.cursor + 1 < s.tape.len → u.len = s.tape.len ∧ u.sequence = s.tape.sequence) ∧
      (s.tape.cursor + 1 = s.tape.len → u.len = 2 * s.tape.len ∧
        u.sequence = s.tape.sequence ++ List.replicate s.tape.len 0 ∧
        Memory.read u.cells u.cursor = 0)

/-- A growth beyond a finite cap is refused, and nothing else is (20_memory.md R64, the spec's decision D4,
log 7). -/
def Obligations.OnlyGrowthBeyondCapIsRefused : Prop :=
  ∀ (i : Instr) (s : State) (r : Refusal),
    exec i s = .refused r ↔
      i = .right ∧ r = .tapeCapExceeded ∧ s.tape.len ≤ s.tape.cursor + 1 ∧
        ∃ c, s.args.tapeCap = some c ∧ c < 2 * s.tape.len

/-- `<` (41_dispatch_and_data.md R105): it completes where the cursor is not 0, and at 0 it is fault entry.
That the rest of the state is frozen then is the spec's decision D7 (log 5). -/
def Obligations.LeftMovesOrFaults : Prop :=
  ∀ s : State,
    (s.tape.cursor ≠ 0 → exec .left s =
      .next { s with tape := { s.tape with cursor := s.tape.cursor - 1 }, ip := s.ip + 1 }) ∧
    (s.tape.cursor = 0 → exec .left s = .next { s with status := .faulted .negativeTapePointer })

/-- `+` and `-` (41_dispatch_and_data.md R106, R107): they complete for every state whose cursor is on a
cell, and change that cell modulo 256 and `ip`, nothing else. -/
def Obligations.IncAndDecWrapCurrentCell : Prop :=
  ∀ s : State, s.tape.cursor < s.tape.len →
    (∃ m, exec .inc s = .next { s with tape := { s.tape with cells := m }, ip := s.ip + 1 } ∧
      (Memory.read m s.tape.cursor).toNat =
        ((Memory.read s.tape.cells s.tape.cursor).toNat + 1) % 256 ∧
      ∀ a, a ≠ s.tape.cursor → Memory.read m a = Memory.read s.tape.cells a) ∧
    (∃ m, exec .dec s = .next { s with tape := { s.tape with cells := m }, ip := s.ip + 1 } ∧
      ((Memory.read m s.tape.cursor).toNat : Int) =
        (((Memory.read s.tape.cells s.tape.cursor).toNat : Int) - 1) % 256 ∧
      ∀ a, a ≠ s.tape.cursor → Memory.read m a = Memory.read s.tape.cells a)

/-- SKIP (41_dispatch_and_data.md R108): every character that is not an operator's decodes to it, and it
completes in every state and only advances `ip`. -/
def Obligations.InertCharactersOnlyAdvance : Prop :=
  (∀ (w : Nat) (c : Code), c < 2 ^ w → isOperatorCode c = false → decode w c = .skip c) ∧
  ∀ (c : Code) (s : State), exec (.skip c) s = .next { s with ip := s.ip + 1 }

/-- `.` (42_io.md R115): it completes for every state whose cursor is on a cell and appends that cell. -/
def Obligations.OutAppendsCurrentCell : Prop :=
  ∀ s : State, s.tape.cursor < s.tape.len →
    exec .out s = .next { s with
      output := s.output ++ [Memory.read s.tape.cells s.tape.cursor], ip := s.ip + 1 }

/-- `,` (42_io.md R116): it completes for every state whose cursor is on a cell; the cell becomes the input
byte at `input_cursor`, or 0 where the input is exhausted, and `input_cursor` advances either way. -/
def Obligations.InStoresInputByteOrZero : Prop :=
  ∀ s : State, s.tape.cursor < s.tape.len →
    ∃ m, exec .inp s = .next { s with
        tape := { s.tape with cells := m }, inputCursor := s.inputCursor + 1, ip := s.ip + 1 } ∧
      (∀ v, s.args.input[s.inputCursor]? = some v → Memory.read m s.tape.cursor = v) ∧
      (s.args.input.length ≤ s.inputCursor → Memory.read m s.tape.cursor = 0) ∧
      ∀ a, a ≠ s.tape.cursor → Memory.read m a = Memory.read s.tape.cells a

/-- `[` (43_control_flow.md R130): for every state whose cursor is on a cell it falls through, jumps past the
partner, or faults. The frozen state of the fault is the spec's decision D7 (log 5). -/
def Obligations.JzJumpsOnZero : Prop :=
  ∀ s : State, s.tape.cursor < s.tape.len →
    (Memory.read s.tape.cells s.tape.cursor ≠ 0 → exec .jz s = .next { s with ip := s.ip + 1 }) ∧
    (Memory.read s.tape.cells s.tape.cursor = 0 →
      (∀ j, matchFwd s.program s.ip = .found j → exec .jz s = .next { s with ip := j + 1 }) ∧
      (matchFwd s.program s.ip = .unmatched →
        exec .jz s = .next { s with status := .faulted .unmatchedBracket }))

/-- `]` (43_control_flow.md R131): for every state whose cursor is on a cell it falls through, jumps just
after the partner, or faults. The frozen state of the fault is the spec's decision D7 (log 5). -/
def Obligations.JnzJumpsOnNonzero : Prop :=
  ∀ s : State, s.tape.cursor < s.tape.len →
    (Memory.read s.tape.cells s.tape.cursor = 0 → exec .jnz s = .next { s with ip := s.ip + 1 }) ∧
    (Memory.read s.tape.cells s.tape.cursor ≠ 0 →
      (∀ j, matchBwd s.program s.ip = .found j → exec .jnz s = .next { s with ip := j + 1 }) ∧
      (matchBwd s.program s.ip = .unmatched →
        exec .jnz s = .next { s with status := .faulted .unmatchedBracket }))

/-- Where the model stops with a fault of its own: exactly where an instruction needs the current cell and
the cursor is on none, which 10_state.md R24 excludes (log 6). -/
def Obligations.CellAccessOutsideTapeStops : Prop :=
  ∀ (i : Instr) (s : State) (f : Fault),
    exec i s = .fault f ↔
      f = .cellOutOfRange ∧ s.tape.len ≤ s.tape.cursor ∧
        (i = .inc ∨ i = .dec ∨ i = .out ∨ i = .inp ∨ i = .jz ∨ i = .jnz)

/-! ### Frames -/

/-- The frame of the instructions that store to a cell, `+` `-` `,` (41_dispatch_and_data.md R103): every
byte but the one at the address they store to, the Tape's length and cursor, the output, the status, the
arguments and the scan registers are unchanged; `,` alone changes `input_cursor`. -/
def Obligations.StoringInstructionsFrame : Prop :=
  ∀ (i : Instr) (s t : State), i = .inc ∨ i = .dec ∨ i = .inp → exec i s = .next t →
    (∀ a, a ≠ s.tape.address → Memory.read t.tape.cells a = Memory.read s.tape.cells a) ∧
    t.tape.len = s.tape.len ∧ t.tape.cursor = s.tape.cursor ∧ t.output = s.output ∧
    t.status = s.status ∧ t.args = s.args ∧ s.sameScan t ∧
    (i ≠ .inp → t.inputCursor = s.inputCursor) ∧ (i = .inp → t.inputCursor = s.inputCursor + 1)

/-- The frame of the instructions that store to no cell (41_dispatch_and_data.md R103): every existing cell
reads as before, on a legal tape every address does; only `>` and `<` change the cursor, only `>` the
length, only `.` the output; the status changes only at a fault of `<`, `[` or `]`. -/
def Obligations.NonStoringInstructionsFrame : Prop :=
  ∀ (i : Instr) (s t : State),
    i = .right ∨ i = .left ∨ i = .out ∨ i = .jz ∨ i = .jnz ∨ (∃ c, i = .skip c) →
    exec i s = .next t →
    (∀ a, a < s.tape.len → Memory.read t.tape.cells a = Memory.read s.tape.cells a) ∧
    (s.tape.Legal → ∀ a, Memory.read t.tape.cells a = Memory.read s.tape.cells a) ∧
    (i ≠ .right → t.tape.cells = s.tape.cells ∧ t.tape.len = s.tape.len) ∧
    (i ≠ .right → i ≠ .left → t.tape.cursor = s.tape.cursor) ∧
    (i ≠ .out → t.output = s.output) ∧
    t.inputCursor = s.inputCursor ∧ t.args = s.args ∧ s.sameScan t ∧
    (t.status = s.status ∨
      (∃ k, t.status = .faulted k) ∧ (i = .left ∨ i = .jz ∨ i = .jnz))

/-! ### The bracket scans -/

/-- `MatchFwd` (43_control_flow.md R125): it finds the smallest index after `i` up to which the closing
brackets outnumber the opening ones by exactly one, there stands a `]`, it answers unmatched exactly when
there is no such index (R127), and before it the nesting counter, 1 and the opening less the closing ones,
stays at least 1. -/
def Obligations.MatchFwdFindsFirstClosing : Prop :=
  ∀ (p : List Instr) (i : Nat),
    (∀ j, matchFwd p i = .found j ↔ ClosesFwd p i j ∧ ∀ k, k < j → ¬ ClosesFwd p i k) ∧
    (∀ j, matchFwd p i = .found j → p[j]? = some .jnz) ∧
    (matchFwd p i = .unmatched ↔ ∀ j, ¬ ClosesFwd p i j) ∧
    (∀ k, i ≤ k → k < p.length → (∀ j, matchFwd p i = .found j → k < j) →
      countBetween p .jnz (i + 1) (k + 1) ≤ countBetween p .jz (i + 1) (k + 1))

/-- `MatchBwd` (43_control_flow.md R126): it finds the largest index before `i` from which the opening
brackets outnumber the closing ones by exactly one, there stands a `[`, it answers unmatched exactly when
there is no such index (R128), and before it the nesting counter, 1 and the closing less the opening ones,
stays at least 1. -/
def Obligations.MatchBwdFindsNearestOpening : Prop :=
  ∀ (p : List Instr) (i : Nat), i < p.length →
    (∀ j, matchBwd p i = .found j ↔ ClosesBwd p i j ∧ ∀ k, j < k → ¬ ClosesBwd p i k) ∧
    (∀ j, matchBwd p i = .found j → p[j]? = some .jz) ∧
    (matchBwd p i = .unmatched ↔ ∀ j, ¬ ClosesBwd p i j) ∧
    (∀ k, k ≤ i → (∀ j, matchBwd p i = .found j → j < k) →
      countBetween p .jz k i ≤ countBetween p .jnz k i)

/-- The two scans agree in every program, well-formed or not (43_control_flow.md R129 (c)). -/
def Obligations.ScansAgree : Prop :=
  ∀ (p : List Instr) (i j : Nat),
    (p[i]? = some .jz ∧ matchFwd p i = .found j) ↔ (p[j]? = some .jnz ∧ matchBwd p j = .found i)

/-- Both scans see brackets alone: programs of one length with their brackets at the same places have the
same partners, whatever their other characters (43_control_flow.md R129 (b), 30_encoding.md R76). -/
def Obligations.ScansSeeBracketsAlone : Prop :=
  ∀ (p q : List Instr), p.length = q.length →
    (∀ k : Nat, (p[k]? = some Instr.jz ↔ q[k]? = some Instr.jz) ∧
      (p[k]? = some Instr.jnz ↔ q[k]? = some Instr.jnz)) →
    ∀ i, matchFwd p i = matchFwd q i ∧ matchBwd p i = matchBwd q i

/-- In a well-formed program no bracket at its place lacks a partner, so no step and no run raises
`UnmatchedBracket` (43_control_flow.md R129 (d)). -/
def Obligations.BalancedProgramsNeverUnmatched : Prop :=
  (∀ s t : State, Balanced s.program → step s = .next t →
    t.status = .faulted .unmatchedBracket → s.status = .faulted .unmatchedBracket) ∧
  (∀ a : RunArgs, Balanced (decodeProgram a.charW a.prog) → ¬ Yields a (.err .unmatchedBracket))

/-- Where a step goes (10_state.md R27, 43_control_flow.md R140): a step that does not end the run leaves
`ip` in 1..PLEN. A taken `[` goes forward, to just past the `]` that the forward scan found; a taken `]` goes
back, to just past the `[` that the backward scan found; every other instruction, and a bracket that is not
taken, advances `ip` by 1. -/
def Obligations.ControlTransfersStayInProgram : Prop :=
  ∀ (s t : State) (c : Code), s.status = .running → s.fetch = some c → step s = .next t →
    t.status = .running →
    1 ≤ t.ip ∧ t.ip ≤ s.plen ∧
    (decode s.args.charW c = .jz → Memory.read s.tape.cells s.tape.cursor = 0 →
      s.ip + 1 < t.ip ∧ matchFwd s.program s.ip = .found (t.ip - 1) ∧
        s.program[t.ip - 1]? = some .jnz) ∧
    (decode s.args.charW c = .jnz → Memory.read s.tape.cells s.tape.cursor ≠ 0 →
      t.ip ≤ s.ip ∧ matchBwd s.program s.ip = .found (t.ip - 1) ∧
        s.program[t.ip - 1]? = some .jz) ∧
    (¬(decode s.args.charW c = .jz ∧ Memory.read s.tape.cells s.tape.cursor = 0) →
      ¬(decode s.args.charW c = .jnz ∧ Memory.read s.tape.cells s.tape.cursor ≠ 0) →
      t.ip = s.ip + 1)

/-! ### Faults and the end of a run -/

/-- When a step of a run faults, with which kind, and that it leaves all else (60_exceptions.md R150, R151,
R152, R155, R156). The frozen state is the spec's decision D7, the status the spec's decision D10 (log 5). -/
def Obligations.FaultsExactlyWhenTheRulesSay : Prop :=
  ∀ (s : State) (c : Code) (k : FaultKind), s.status = .running → s.fetch = some c →
    s.tape.cursor < s.tape.len →
    ((∃ t, step s = .next t ∧ t.status = .faulted k) ↔
      (k = .negativeTapePointer ∧ decode s.args.charW c = .left ∧ s.tape.cursor = 0) ∨
      (k = .unmatchedBracket ∧ decode s.args.charW c = .jz ∧
        Memory.read s.tape.cells s.tape.cursor = 0 ∧ matchFwd s.program s.ip = .unmatched) ∨
      (k = .unmatchedBracket ∧ decode s.args.charW c = .jnz ∧
        Memory.read s.tape.cells s.tape.cursor ≠ 0 ∧ matchBwd s.program s.ip = .unmatched)) ∧
    (∀ t, step s = .next t → t.status = .faulted k → t = { s with status := .faulted k })

/-- No program raises `InvalidByteValue`: no step enters that fault and no run ends with it
(60_exceptions.md R153). -/
def Obligations.NoProgramRaisesInvalidByte : Prop :=
  (∀ s t : State, step s = .next t → t.status = .faulted .invalidByteValue →
    s.status = .faulted .invalidByteValue) ∧
  (∀ a : RunArgs, ¬ Yields a (.err .invalidByteValue))

/-- A run halts exactly when a step finds `ip` outside the program, and that step changes the status alone
(41_dispatch_and_data.md R101; that halting is a step is the spec's decision D24, log 13). -/
def Obligations.HaltsExactlyOutsideProgram : Prop :=
  ∀ s t : State, s.status = .running → step s = .next t →
    (t.status = .halted ↔ s.plen ≤ s.ip) ∧ (t.status = .halted → t = { s with status := .halted })

/-- Terminal statuses are absorbing, for steps and for ticks (10_state.md R33, 60_exceptions.md R160, the
spec's decision D14, log 14). -/
def Obligations.TerminalStatesAbsorb : Prop :=
  ∀ (s : State) (n : Nat), s.status ≠ .running →
    iterate step n s = .next s ∧ iterate tick n s = .next s

/-- The codes of the status are the table's and tell all five values apart (10_state.md R33, 60_exceptions.md
R154, the spec's decision D6, log 15). -/
def Obligations.StatusCodesAreTheTables : Prop :=
  Status.code .running = 0 ∧ Status.code (.faulted .negativeTapePointer) = 1 ∧
  Status.code (.faulted .invalidByteValue) = 2 ∧ Status.code (.faulted .unmatchedBracket) = 3 ∧
  Status.code .halted = 4 ∧ ∀ x y : Status, x.code = y.code → x = y

/-- The result of a run is a function of its arguments (70_reset_and_hazards.md R184). -/
def Obligations.RunResultIsUnique : Prop :=
  ∀ (a : RunArgs) (r r' : RunResult), Yields a r → Yields a r' → r = r'

/-! ### Invariants -/

/-- The Tape invariant (10_state.md R24): it holds at reset, every step keeps it, only `>` and `<` change the
cursor, and while it holds no cell access is out of range. -/
def Obligations.TapeCursorStaysOnACell : Prop :=
  State.reset.tape.cursor < State.reset.tape.len ∧
  ∀ s : State, s.tape.cursor < s.tape.len →
    (∀ t, step s = .next t → t.tape.cursor < t.tape.len) ∧
    (∀ f, step s ≠ .fault f) ∧
    (∃ v, s.tape.sequence[s.tape.cursor]? = some v) ∧
    (∀ i t, exec i s = .next t → t.tape.cursor ≠ s.tape.cursor → i = .right ∨ i = .left)

/-- Every step keeps the invariant of the core: memory in canonical form, the tape's length a power of two
times 4 and within the cap, the cursor on a cell, `ip` in 0..PLEN, legal arguments (10_state.md R22, R24,
R26). -/
def Obligations.StepKeepsStateLegal : Prop :=
  ∀ s t : State, s.Legal → step s = .next t → t.Legal

/-- From a legal state the machine always goes on: a step answers a legal next state, unless a finite cap
forbids the growth that a `>` needs (60_exceptions.md R150, R159; 20_memory.md R64). -/
def Obligations.LegalStatesAlwaysGoOn : Prop :=
  ∀ s : State, s.Legal →
    (∃ t, step s = .next t ∧ t.Legal) ∨
    (step s = .refused .tapeCapExceeded ∧ s.status = .running ∧ s.program[s.ip]? = some .right ∧
      s.tape.cursor + 1 = s.tape.len ∧ ∃ cap, s.args.tapeCap = some cap ∧ cap < 2 * s.tape.len)

/-- Program and input are constant during a run (10_state.md R36, 20_memory.md R68), for steps and for
ticks, however many. -/
def Obligations.RunArgumentsNeverChange : Prop :=
  ∀ (n : Nat) (s t : State),
    iterate step n s = .next t ∨ iterate tick n s = .next t → t.args = s.args ∧ t.program = s.program

/-- The monotonic quantities (10_state.md R40): the length never shrinks, the input cursor never goes back,
the output only grows at its end, over any number of steps. -/
def Obligations.MonotonicQuantities : Prop :=
  ∀ (n : Nat) (s t : State), iterate step n s = .next t →
    s.tape.len ≤ t.tape.len ∧ s.inputCursor ≤ t.inputCursor ∧ s.output <+: t.output

/-- `input_cursor` counts the `,` and the length of `output` counts the `.` executed (10_state.md R28,
R29). -/
def Obligations.StreamsCountTheirInstructions : Prop :=
  ∀ (n : Nat) (s t : State), iterate step n s = .next t →
    t.inputCursor = s.inputCursor + tally countsInp n s ∧
    t.output.length = s.output.length + tally countsOut n s

/-- The growth schedule of a run (20_memory.md R59): the length is fixed by the largest cursor so far. -/
def Obligations.RunFollowsGrowthSchedule : Prop :=
  ∀ (a : RunArgs) (n : Nat) (t : State), iterate step n (State.present a) = .next t →
    t.tape.len = scheduledLen (peakCursor n (State.present a))

/-! ### What cannot be observed -/

/-- The tape's length is not observable (10_state.md R22, 92_eei_decisions.md D25): states that differ in it
alone step to states that differ in it alone, and have the same result. -/
def Obligations.TapeLengthIsUnobservable : Prop :=
  ∀ s t : State, SameButLen s t →
    s.result = t.result ∧
    ∀ s', step s = .next s' → ∃ t', step t = .next t' ∧ SameButLen s' t'

/-- No instruction reads the output (10_state.md R29): an earlier output is carried along and changes nothing
else. -/
def Obligations.OutputIsNeverRead : Prop :=
  ∀ (s t : State) (o : List Byte), step s = .next t →
    step { s with output := o ++ s.output } = .next { t with output := o ++ t.output }

/-! ### The tick refinement (43_control_flow.md section 4, the spec's decision D9, log 12) -/

/-- Agreement (43_control_flow.md R138): from an instruction boundary, the ticks of one step lead to the
state that the step leads to, on every architectural element, back at `FETCH` and at no boundary before; the
number of ticks is the rule's, at most PLEN + 1; where the step stops, so does the tick. -/
def Obligations.TicksAgreeWithStep : Prop :=
  ∀ s : State, s.phase = .fetch →
    (∀ t, step s = .next t →
      (∃ u, iterate tick (tickCost s) s = .next u ∧ u.phase = .fetch ∧ SameArch u t) ∧
      (∀ m, 0 < m → m < tickCost s →
        ∃ v, iterate tick m s = .next v ∧ v.phase ≠ .fetch ∧ v.status = .running)) ∧
    tickCost s ≤ s.plen + 1 ∧
    (∀ f, step s = .fault f → tick s = .fault f) ∧
    (∀ r, step s = .refused r → tick s = .refused r)

/-- The observable behaviour of the refinement is the machine's (43_control_flow.md R133): a run by ticks and
a run by steps have the same result. -/
def Obligations.TickRunsGiveTheSameResult : Prop :=
  ∀ (a : RunArgs) (r : RunResult), TickYields a r ↔ Yields a r

/-- Every tick keeps the scan registers legal (43_control_flow.md R139): mid-scan `sp` is below PLEN and
`depth` is between 1 and PLEN. -/
def Obligations.TickKeepsScanRegistersLegal : Prop :=
  ∀ s : State, s.ScanLegal →
    (∀ t, tick s = .next t → t.ScanLegal) ∧
    (s.phase ≠ .fetch → s.sp < s.plen ∧ 1 ≤ s.depth ∧ s.depth ≤ s.plen)

/-- A tick of a scan changes nothing but the scan registers and, at its end, `ip` or the status
(43_control_flow.md R137). -/
def Obligations.ScanTicksTouchNothingElse : Prop :=
  ∀ s t : State, s.phase ≠ .fetch → s.status = .running → tick s = .next t →
    t.tape = s.tape ∧ t.inputCursor = s.inputCursor ∧ t.output = s.output ∧ t.args = s.args ∧
    (t.phase ≠ .fetch → t.ip = s.ip ∧ t.status = .running) ∧
    (t.phase = .fetch →
      (t.status = .running ∧ 1 ≤ t.ip) ∨ (t.status = .faulted .unmatchedBracket ∧ t.ip = s.ip))

/-! ### The growth schedule, step by step -/

/-- Every step keeps the growth schedule (20_memory.md R59): where `m` is at least the cursor and the length
is the schedule's for `m`, the length after the step is the schedule's for the larger of `m` and the new
cursor, from every such state and not only in a run. -/
def Obligations.StepKeepsGrowthSchedule : Prop :=
  ∀ (m : Nat) (s t : State), s.tape.cursor ≤ m → s.tape.len = scheduledLen m → step s = .next t →
    t.tape.len = scheduledLen (max m t.tape.cursor)
end

