-- ==== Sys2Proof/Laws/Decode.lean ====
section
/-! SUPPORT. The decoder's cases (30_encoding.md R74), said once. -/

namespace Sys2Proof

/-- The operator codes are pairwise distinct, so no code decodes to two instructions (30_encoding.md R74). -/
theorem operatorTable_distinct : operatorTable.Pairwise (fun x y => x.1 ≠ y.1) := by decide

/-- A code is an operator's, and decodes to its row, or it decodes to SKIP. -/
theorem decodeOp_cases (c : Code) :
    ((c, decodeOp c) ∈ operatorTable) ∨ (isOperatorCode c = false ∧ decodeOp c = .skip c) := by
  unfold decodeOp isOperatorCode
  cases h : operatorTable.find? (fun row => row.1 == c) with
  | none => exact .inr ⟨by simpa using h, rfl⟩
  | some row =>
    left
    have hc := List.find?_some h
    have hm := List.mem_of_find?_eq_some h
    simp at hc
    subst hc
    exact hm

theorem opField_of_lt (w : Nat) (c : Code) (h : c < 2 ^ w) : opField w c = c := Nat.mod_eq_of_lt h

theorem opField_lt (w : Nat) (c : Code) : opField w c < 2 ^ w := Nat.mod_lt _ (Nat.two_pow_pos w)

end Sys2Proof
end

