-- ==== Sys2Proof/Laws/Memory.lean ====
section
/-! SUPPORT. Memory: read after write, and every operation keeps the canonical form. -/

namespace Sys2Proof.Machine

theorem Memory.read_append (m n : List Host.Cell) (a : Nat) :
    Memory.read (m ++ n) a =
      if ∃ x ∈ m, x.1 = a then Memory.read m a else Memory.read n a := by
  induction m with
  | nil => simp
  | cons x m ih =>
    by_cases h : x.1 = a
    · simp [Memory.read, h]
    · simp [Memory.read, h, ih]

theorem Memory.read_eq_unlisted (m : List Host.Cell) (a : Nat) (h : ∀ x ∈ m, x.1 ≠ a) :
    Memory.read m a = Memory.unlisted := by
  induction m with
  | nil => rfl
  | cons x m ih =>
    rw [Memory.read, if_neg (h x (by simp))]
    exact ih fun y hy => h y (by simp [hy])

/-- Entries of other addresses do not matter to a read. -/
theorem Memory.read_filter (m : List Host.Cell) (p : Host.Cell → Bool) (a : Nat)
    (h : ∀ x : Host.Cell, x.1 = a → p x = true) : Memory.read (m.filter p) a = Memory.read m a := by
  induction m with
  | nil => rfl
  | cons x m ih =>
    by_cases hx : x.1 = a
    · rw [List.filter_cons_of_pos (h x hx), Memory.read, Memory.read, if_pos hx, if_pos hx]
    · cases hp : p x
      · rw [List.filter_cons_of_neg (by simp [hp]), ih, Memory.read, if_neg hx]
      · rw [List.filter_cons_of_pos hp, Memory.read, Memory.read, if_neg hx, if_neg hx, ih]

theorem Memory.read_entry (a b : Nat) (v : Byte) :
    Memory.read (Memory.entry a v) b = if a = b then v else Memory.unlisted := by
  unfold Memory.entry
  split <;> simp_all [Memory.read]

/-- A read after a write to the same place gives the value written. -/
@[simp] theorem Memory.read_write_same (m : List Host.Cell) (a : Nat) (v : Byte) :
    Memory.read (Memory.write m a v) a = v := by
  have hlow : ¬ ∃ x ∈ m.filter (fun x => decide (x.1 < a)), x.1 = a := by simp
  have hhigh : ∀ x ∈ m.filter (fun x => decide (a < x.1)), x.1 ≠ a := by simp; omega
  rw [Memory.write, List.append_assoc, Memory.read_append, if_neg hlow, Memory.read_append,
    Memory.read_eq_unlisted _ a hhigh, Memory.read_entry, if_pos rfl]
  unfold Memory.entry
  split <;> simp_all

/-- A write leaves every other place alone. -/
theorem Memory.read_write_other (m : List Host.Cell) (a b : Nat) (v : Byte) (h : b ≠ a) :
    Memory.read (Memory.write m a v) b = Memory.read m b := by
  have hent : ¬ ∃ x ∈ Memory.entry a v, x.1 = b := by
    unfold Memory.entry
    split <;> simp_all [eq_comm]
  rw [Memory.write, List.append_assoc, Memory.read_append, Memory.read_append, if_neg hent]
  rcases Nat.lt_or_gt_of_ne h with hlt | hgt
  · rw [Memory.read_filter m (fun x => decide (x.1 < a)) b (by intro x hx; simp [hx, hlt]),
      Memory.read_eq_unlisted (m.filter fun x => decide (a < x.1)) b (by simp; omega)]
    split
    · rfl
    · rename_i hno
      rw [← Memory.read_filter m (fun x => decide (x.1 < a)) b (by intro x hx; simp [hx, hlt])]
      exact (Memory.read_eq_unlisted _ b fun x hx hxb => hno ⟨x, hx, hxb⟩).symm
  · rw [if_neg (by simp; omega), Memory.read_filter m _ b (by intro x hx; simp [hx, hgt])]

/-- A write keeps the canonical form. -/
theorem Memory.wf_write (m : List Host.Cell) (a : Nat) (v : Byte) (h : Memory.wf m) :
    Memory.wf (Memory.write m a v) := by
  obtain ⟨hs, hv⟩ := h
  refine ⟨?_, ?_⟩
  · have hent : (Memory.entry a v).Pairwise (fun x y => x.1 < y.1) := by
      unfold Memory.entry
      split <;> simp
    rw [Memory.write, List.pairwise_append, List.pairwise_append]
    refine ⟨⟨hs.filter _, hent, ?_⟩, hs.filter _, ?_⟩ <;> unfold Memory.entry <;> split <;>
      simp <;> omega
  · intro x hx
    unfold Memory.write Memory.entry at hx
    split at hx
    · simp at hx
      rcases hx with h | h <;> exact hv _ h.1
    · simp at hx
      rcases hx with h | h | h
      · exact hv _ h.1
      · subst h; assumption
      · exact hv _ h.1

/-- The addresses a write lists. -/
theorem Memory.mem_write (m : List Host.Cell) (a : Nat) (v : Byte) (x : Host.Cell)
    (h : x ∈ Memory.write m a v) : x ∈ m ∨ x.1 = a := by
  unfold Memory.write Memory.entry at h
  split at h <;> simp at h
  · rcases h with h | h <;> exact .inl h.1
  · rcases h with h | h | h
    · exact .inl h.1
    · exact .inr (by rw [h])
    · exact .inl h.1

/-- Zero-filling keeps the canonical form. -/
theorem Memory.wf_below (m : List Host.Cell) (n : Nat) (h : Memory.wf m) : Memory.wf (Memory.below n m) :=
  ⟨h.1.filter _, fun x hx => h.2 x (List.mem_filter.mp hx).1⟩

theorem Memory.read_below (m : List Host.Cell) (n a : Nat) :
    Memory.read (Memory.below n m) a = if a < n then Memory.read m a else Memory.unlisted := by
  unfold Memory.below
  split
  · exact Memory.read_filter m _ a (by intro x hx; simp_all)
  · exact Memory.read_eq_unlisted _ a (by simp; omega)

theorem Memory.below_eq_self (m : List Host.Cell) (n : Nat) (h : ∀ x ∈ m, x.1 < n) :
    Memory.below n m = m := by
  simp [Memory.below, List.filter_eq_self]
  exact fun a b hab => h (a, b) hab

/-- The empty memory is canonical. -/
theorem Memory.wf_nil : Memory.wf [] := ⟨List.Pairwise.nil, by simp⟩

end Sys2Proof.Machine
end

