-- ==== Sys2Proof/Laws/PerInstr.lean ====
section
/-! SUPPORT. Facts about every instruction as syntax, one lemma per constructor. -/

namespace Sys2Proof.Laws.EncodeFits

/-- The character of a well-formed instruction fits the width (30_encoding.md R70, R80). -/
def Statement (i : Instr) : Prop := ∀ w : Nat, i.wf w = true → encode i < 2 ^ w

/-- Every operator's code is below 128, so it fits any allowed width. -/
theorem fits_of_lt (w n : Nat) (h : charWidthOk w = true) (hn : n < 2 ^ 7) : n < 2 ^ w := by
  have h7 : 7 ≤ w := of_decide_eq_true h
  exact Nat.lt_of_lt_of_le hn (Nat.pow_le_pow_right (by omega) h7)

theorem right : Statement .right := fun w h => fits_of_lt w _ h (by decide)
theorem left : Statement .left := fun w h => fits_of_lt w _ h (by decide)
theorem inc : Statement .inc := fun w h => fits_of_lt w _ h (by decide)
theorem dec : Statement .dec := fun w h => fits_of_lt w _ h (by decide)
theorem out : Statement .out := fun w h => fits_of_lt w _ h (by decide)
theorem inp : Statement .inp := fun w h => fits_of_lt w _ h (by decide)
theorem jz : Statement .jz := fun w h => fits_of_lt w _ h (by decide)
theorem jnz : Statement .jnz := fun w h => fits_of_lt w _ h (by decide)
theorem skip (c : Code) : Statement (.skip c) := by
  intro w h
  simp [Instr.wf, inertCodeOk] at h
  exact h.2.1

end Sys2Proof.Laws.EncodeFits
end

