-- ==== Sys2Proof/Laws/Scan.lean ====
section
/-! SUPPORT. The bracket scans: what they can answer (43_control_flow.md R125 to R129). -/

namespace Sys2Proof.Machine

@[simp] theorem scan_nil (o c : Instr) (d : Nat) : scan o c d [] = none := by
  unfold scan; rfl

theorem scan_cons (o c : Instr) (d : Nat) (i : Instr) (p : List Instr) :
    scan o c d (i :: p) =
      if nest o c d i = 0 then some 0 else (scan o c (nest o c d i) p).map (· + 1) := by
  rw [scan]

/-- A scan stops at one of the characters it is given. -/
theorem scan_lt (o c : Instr) (p : List Instr) (d k : Nat) (h : scan o c d p = some k) :
    k < p.length := by
  induction p generalizing d k with
  | nil => simp at h
  | cons i p ih =>
    rw [scan_cons] at h
    split at h
    · simp_all
      omega
    · obtain ⟨j, hj, rfl⟩ := Option.map_eq_some_iff.mp h
      have := ih _ _ hj
      simp; omega

/-- The partner of `[` lies after it and inside the program. -/
theorem matchFwd_found (p : List Instr) (i j : Nat) (h : matchFwd p i = .found j) :
    i < j ∧ j < p.length := by
  unfold matchFwd at h
  split at h
  · rename_i k hk
    have := scan_lt _ _ _ _ _ hk
    simp at this h
    omega
  · cases h

/-- The partner of `]` lies before it. -/
theorem matchBwd_found (p : List Instr) (i j : Nat) (h : matchBwd p i = .found j) : j < i := by
  unfold matchBwd at h
  split at h
  · rename_i k hk
    have := scan_lt _ _ _ _ _ hk
    simp at this h
    omega
  · cases h

/-- The nesting counter moves by at most 1. -/
theorem nest_le (o c : Instr) (d : Nat) (i : Instr) : nest o c d i ≤ d + 1 := by
  unfold nest
  split
  · omega
  · split <;> omega

/-- A character that is neither bracket leaves the counter (43_control_flow.md R129 (b)). -/
theorem nest_other (o c : Instr) (d : Nat) (i : Instr) (ho : i ≠ o) (hc : i ≠ c) : nest o c d i = d := by
  simp [nest, ho, hc]

end Sys2Proof.Machine
end

