-- ==== Sys2Proof/Laws/State.lean ====
section
/-! SUPPORT. One lemma per field per update of the state, all true by definition, so that no proof unfolds
an update. -/

namespace Sys2Proof.Machine

@[simp] theorem State.goto_args (s : State) (n : Nat) : (s.goto n).args = s.args := rfl
@[simp] theorem State.goto_tape (s : State) (n : Nat) : (s.goto n).tape = s.tape := rfl
@[simp] theorem State.goto_ip (s : State) (n : Nat) : (s.goto n).ip = n := rfl
@[simp] theorem State.goto_inputCursor (s : State) (n : Nat) : (s.goto n).inputCursor = s.inputCursor := rfl
@[simp] theorem State.goto_output (s : State) (n : Nat) : (s.goto n).output = s.output := rfl
@[simp] theorem State.goto_status (s : State) (n : Nat) : (s.goto n).status = s.status := rfl
@[simp] theorem State.goto_phase (s : State) (n : Nat) : (s.goto n).phase = s.phase := rfl
@[simp] theorem State.goto_sp (s : State) (n : Nat) : (s.goto n).sp = s.sp := rfl
@[simp] theorem State.goto_depth (s : State) (n : Nat) : (s.goto n).depth = s.depth := rfl
@[simp] theorem State.goto_plen (s : State) (n : Nat) : (s.goto n).plen = s.plen := rfl
@[simp] theorem State.goto_program (s : State) (n : Nat) : (s.goto n).program = s.program := rfl

@[simp] theorem State.advance_args (s : State) : (s.advance).args = s.args := rfl
@[simp] theorem State.advance_tape (s : State) : (s.advance).tape = s.tape := rfl
@[simp] theorem State.advance_ip (s : State) : (s.advance).ip = s.ip + 1 := rfl
@[simp] theorem State.advance_inputCursor (s : State) : (s.advance).inputCursor = s.inputCursor := rfl
@[simp] theorem State.advance_output (s : State) : (s.advance).output = s.output := rfl
@[simp] theorem State.advance_status (s : State) : (s.advance).status = s.status := rfl
@[simp] theorem State.advance_phase (s : State) : (s.advance).phase = s.phase := rfl
@[simp] theorem State.advance_sp (s : State) : (s.advance).sp = s.sp := rfl
@[simp] theorem State.advance_depth (s : State) : (s.advance).depth = s.depth := rfl
@[simp] theorem State.advance_plen (s : State) : (s.advance).plen = s.plen := rfl
@[simp] theorem State.advance_program (s : State) : (s.advance).program = s.program := rfl

@[simp] theorem State.withTape_args (s : State) (t : Tape) : (s.withTape t).args = s.args := rfl
@[simp] theorem State.withTape_tape (s : State) (t : Tape) : (s.withTape t).tape = t := rfl
@[simp] theorem State.withTape_ip (s : State) (t : Tape) : (s.withTape t).ip = s.ip := rfl
@[simp] theorem State.withTape_inputCursor (s : State) (t : Tape) : (s.withTape t).inputCursor = s.inputCursor := rfl
@[simp] theorem State.withTape_output (s : State) (t : Tape) : (s.withTape t).output = s.output := rfl
@[simp] theorem State.withTape_status (s : State) (t : Tape) : (s.withTape t).status = s.status := rfl
@[simp] theorem State.withTape_phase (s : State) (t : Tape) : (s.withTape t).phase = s.phase := rfl
@[simp] theorem State.withTape_sp (s : State) (t : Tape) : (s.withTape t).sp = s.sp := rfl
@[simp] theorem State.withTape_depth (s : State) (t : Tape) : (s.withTape t).depth = s.depth := rfl
@[simp] theorem State.withTape_plen (s : State) (t : Tape) : (s.withTape t).plen = s.plen := rfl
@[simp] theorem State.withTape_program (s : State) (t : Tape) : (s.withTape t).program = s.program := rfl

@[simp] theorem State.emit_args (s : State) (v : Byte) : (s.emit v).args = s.args := rfl
@[simp] theorem State.emit_tape (s : State) (v : Byte) : (s.emit v).tape = s.tape := rfl
@[simp] theorem State.emit_ip (s : State) (v : Byte) : (s.emit v).ip = s.ip := rfl
@[simp] theorem State.emit_inputCursor (s : State) (v : Byte) : (s.emit v).inputCursor = s.inputCursor := rfl
@[simp] theorem State.emit_output (s : State) (v : Byte) : (s.emit v).output = s.output ++ [v] := rfl
@[simp] theorem State.emit_status (s : State) (v : Byte) : (s.emit v).status = s.status := rfl
@[simp] theorem State.emit_phase (s : State) (v : Byte) : (s.emit v).phase = s.phase := rfl
@[simp] theorem State.emit_sp (s : State) (v : Byte) : (s.emit v).sp = s.sp := rfl
@[simp] theorem State.emit_depth (s : State) (v : Byte) : (s.emit v).depth = s.depth := rfl
@[simp] theorem State.emit_plen (s : State) (v : Byte) : (s.emit v).plen = s.plen := rfl
@[simp] theorem State.emit_program (s : State) (v : Byte) : (s.emit v).program = s.program := rfl

@[simp] theorem State.advanceInput_args (s : State) : (s.advanceInput).args = s.args := rfl
@[simp] theorem State.advanceInput_tape (s : State) : (s.advanceInput).tape = s.tape := rfl
@[simp] theorem State.advanceInput_ip (s : State) : (s.advanceInput).ip = s.ip := rfl
@[simp] theorem State.advanceInput_inputCursor (s : State) : (s.advanceInput).inputCursor = s.inputCursor + 1 := rfl
@[simp] theorem State.advanceInput_output (s : State) : (s.advanceInput).output = s.output := rfl
@[simp] theorem State.advanceInput_status (s : State) : (s.advanceInput).status = s.status := rfl
@[simp] theorem State.advanceInput_phase (s : State) : (s.advanceInput).phase = s.phase := rfl
@[simp] theorem State.advanceInput_sp (s : State) : (s.advanceInput).sp = s.sp := rfl
@[simp] theorem State.advanceInput_depth (s : State) : (s.advanceInput).depth = s.depth := rfl
@[simp] theorem State.advanceInput_plen (s : State) : (s.advanceInput).plen = s.plen := rfl
@[simp] theorem State.advanceInput_program (s : State) : (s.advanceInput).program = s.program := rfl

@[simp] theorem State.halt_args (s : State) : (s.halt).args = s.args := rfl
@[simp] theorem State.halt_tape (s : State) : (s.halt).tape = s.tape := rfl
@[simp] theorem State.halt_ip (s : State) : (s.halt).ip = s.ip := rfl
@[simp] theorem State.halt_inputCursor (s : State) : (s.halt).inputCursor = s.inputCursor := rfl
@[simp] theorem State.halt_output (s : State) : (s.halt).output = s.output := rfl
@[simp] theorem State.halt_status (s : State) : (s.halt).status = .halted := rfl
@[simp] theorem State.halt_phase (s : State) : (s.halt).phase = s.phase := rfl
@[simp] theorem State.halt_sp (s : State) : (s.halt).sp = s.sp := rfl
@[simp] theorem State.halt_depth (s : State) : (s.halt).depth = s.depth := rfl
@[simp] theorem State.halt_plen (s : State) : (s.halt).plen = s.plen := rfl
@[simp] theorem State.halt_program (s : State) : (s.halt).program = s.program := rfl

@[simp] theorem State.raise_args (s : State) (k : FaultKind) : (s.raise k).args = s.args := rfl
@[simp] theorem State.raise_tape (s : State) (k : FaultKind) : (s.raise k).tape = s.tape := rfl
@[simp] theorem State.raise_ip (s : State) (k : FaultKind) : (s.raise k).ip = s.ip := rfl
@[simp] theorem State.raise_inputCursor (s : State) (k : FaultKind) : (s.raise k).inputCursor = s.inputCursor := rfl
@[simp] theorem State.raise_output (s : State) (k : FaultKind) : (s.raise k).output = s.output := rfl
@[simp] theorem State.raise_status (s : State) (k : FaultKind) : (s.raise k).status = .faulted k := rfl
@[simp] theorem State.raise_phase (s : State) (k : FaultKind) : (s.raise k).phase = s.phase := rfl
@[simp] theorem State.raise_sp (s : State) (k : FaultKind) : (s.raise k).sp = s.sp := rfl
@[simp] theorem State.raise_depth (s : State) (k : FaultKind) : (s.raise k).depth = s.depth := rfl
@[simp] theorem State.raise_plen (s : State) (k : FaultKind) : (s.raise k).plen = s.plen := rfl
@[simp] theorem State.raise_program (s : State) (k : FaultKind) : (s.raise k).program = s.program := rfl

@[simp] theorem State.setScan_args (s : State) (p : Phase) (j d : Nat) : (s.setScan p j d).args = s.args := rfl
@[simp] theorem State.setScan_tape (s : State) (p : Phase) (j d : Nat) : (s.setScan p j d).tape = s.tape := rfl
@[simp] theorem State.setScan_ip (s : State) (p : Phase) (j d : Nat) : (s.setScan p j d).ip = s.ip := rfl
@[simp] theorem State.setScan_inputCursor (s : State) (p : Phase) (j d : Nat) : (s.setScan p j d).inputCursor = s.inputCursor := rfl
@[simp] theorem State.setScan_output (s : State) (p : Phase) (j d : Nat) : (s.setScan p j d).output = s.output := rfl
@[simp] theorem State.setScan_status (s : State) (p : Phase) (j d : Nat) : (s.setScan p j d).status = s.status := rfl
@[simp] theorem State.setScan_phase (s : State) (p : Phase) (j d : Nat) : (s.setScan p j d).phase = p := rfl
@[simp] theorem State.setScan_sp (s : State) (p : Phase) (j d : Nat) : (s.setScan p j d).sp = j := rfl
@[simp] theorem State.setScan_depth (s : State) (p : Phase) (j d : Nat) : (s.setScan p j d).depth = d := rfl
@[simp] theorem State.setScan_plen (s : State) (p : Phase) (j d : Nat) : (s.setScan p j d).plen = s.plen := rfl
@[simp] theorem State.setScan_program (s : State) (p : Phase) (j d : Nat) : (s.setScan p j d).program = s.program := rfl

@[simp] theorem State.endScan_args (s : State) : (s.endScan).args = s.args := rfl
@[simp] theorem State.endScan_tape (s : State) : (s.endScan).tape = s.tape := rfl
@[simp] theorem State.endScan_ip (s : State) : (s.endScan).ip = s.ip := rfl
@[simp] theorem State.endScan_inputCursor (s : State) : (s.endScan).inputCursor = s.inputCursor := rfl
@[simp] theorem State.endScan_output (s : State) : (s.endScan).output = s.output := rfl
@[simp] theorem State.endScan_status (s : State) : (s.endScan).status = s.status := rfl
@[simp] theorem State.endScan_phase (s : State) : (s.endScan).phase = .fetch := rfl
@[simp] theorem State.endScan_sp (s : State) : (s.endScan).sp = s.sp := rfl
@[simp] theorem State.endScan_depth (s : State) : (s.endScan).depth = s.depth := rfl
@[simp] theorem State.endScan_plen (s : State) : (s.endScan).plen = s.plen := rfl
@[simp] theorem State.endScan_program (s : State) : (s.endScan).program = s.program := rfl

@[simp] theorem State.present_args (a : RunArgs) : (State.present a).args = a := rfl
@[simp] theorem State.present_tape (a : RunArgs) : (State.present a).tape = Tape.fresh := rfl
@[simp] theorem State.present_ip (a : RunArgs) : (State.present a).ip = 0 := rfl
@[simp] theorem State.present_inputCursor (a : RunArgs) : (State.present a).inputCursor = 0 := rfl
@[simp] theorem State.present_output (a : RunArgs) : (State.present a).output = [] := rfl
@[simp] theorem State.present_status (a : RunArgs) : (State.present a).status = .running := rfl
@[simp] theorem State.present_phase (a : RunArgs) : (State.present a).phase = .fetch := rfl
@[simp] theorem State.present_sp (a : RunArgs) : (State.present a).sp = 0 := rfl
@[simp] theorem State.present_depth (a : RunArgs) : (State.present a).depth = 0 := rfl

@[simp] theorem State.invoke_done {α : Type} (s : State) (a : α) (k : α → Host.Outcome State Fault Refusal) :
    s.invoke (.done a) k = k a := rfl

@[simp] theorem State.invoke_raises {α : Type} (s : State) (f : FaultKind)
    (k : α → Host.Outcome State Fault Refusal) : s.invoke (.raises f) k = .next (s.raise f) := rfl

@[simp] theorem State.invoke_noCell {α : Type} (s : State) (k : α → Host.Outcome State Fault Refusal) :
    s.invoke .noCell k = .fault .cellOutOfRange := rfl

@[simp] theorem State.invoke_overCap {α : Type} (s : State) (k : α → Host.Outcome State Fault Refusal) :
    s.invoke .overCap k = .refused .tapeCapExceeded := rfl

/-- Everything an invocation of the Tape can lead to. -/
theorem State.invoke_next_iff {α : Type} (s t : State) (r : TapeOutcome α)
    (k : α → Host.Outcome State Fault Refusal) :
    s.invoke r k = .next t ↔
      (∃ a, r = .done a ∧ k a = .next t) ∨ (∃ f, r = .raises f ∧ t = s.raise f) := by
  cases r <;> simp [eq_comm]

@[simp] theorem State.jump_found (s : State) (j : Nat) : s.jump (.found j) = s.goto (j + 1) := rfl

@[simp] theorem State.jump_unmatched (s : State) : s.jump .unmatched = s.raise .unmatchedBracket := rfl

end Sys2Proof.Machine
end

