-- ==== Sys2Proof/Laws/Tape.lean ====
section
/-! SUPPORT. One lemma per Tape operation that says all it can do (40_tape_ops.md). -/

namespace Sys2Proof.Machine

/-- All `increment_pointer` can do. -/
theorem Tape.incrementPointer_eq (cap : Option Nat) (t : Tape) :
    (t.cursor + 1 < t.len ∧ t.incrementPointer cap = .done { t with cursor := t.cursor + 1 }) ∨
    (t.len ≤ t.cursor + 1 ∧ fitsCap cap (2 * t.len) = true ∧
      t.incrementPointer cap =
        .done { cells := Memory.below t.len t.cells, len := 2 * t.len, cursor := t.cursor + 1 }) ∨
    (t.len ≤ t.cursor + 1 ∧ fitsCap cap (2 * t.len) = false ∧ t.incrementPointer cap = .overCap) := by
  unfold Tape.incrementPointer Tape.grow
  by_cases h : t.len ≤ t.cursor + 1
  · cases hc : fitsCap cap (2 * t.len) <;> simp [h]
  · simp [h]; omega

/-- All `decrement_pointer` can do. -/
theorem Tape.decrementPointer_eq (t : Tape) :
    (t.cursor = 0 ∧ t.decrementPointer = .raises .negativeTapePointer) ∨
    (t.cursor ≠ 0 ∧ t.decrementPointer = .done { t with cursor := t.cursor - 1 }) := by
  unfold Tape.decrementPointer
  by_cases h : t.cursor = 0 <;> simp [h]

/-- All `get_cell` can do. -/
theorem Tape.getCell_eq (t : Tape) :
    (t.cursor < t.len ∧ t.getCell = .done (Memory.read t.cells t.cursor)) ∨
    (t.len ≤ t.cursor ∧ t.getCell = .noCell) := by
  unfold Tape.getCell Tape.memRead Tape.address
  by_cases h : t.cursor < t.len
  · simp [h]
  · simp [h]; omega

/-- All a read-modify-write of the current cell can do. -/
theorem Tape.modifyCell_eq (t : Tape) (f : Byte → Byte) :
    (t.cursor < t.len ∧ t.modifyCell f =
      .done { t with cells := Memory.write t.cells t.cursor (f (Memory.read t.cells t.cursor)) }) ∨
    (t.len ≤ t.cursor ∧ t.modifyCell f = .noCell) := by
  rcases t.getCell_eq with ⟨h, hg⟩ | ⟨h, hg⟩
  · simp [Tape.modifyCell, hg, Tape.memWrite, Tape.address, h]
  · simp [Tape.modifyCell, hg, h]

/-- All `set_cell` can do. -/
theorem Tape.setCell_eq (t : Tape) (v : Int) :
    (inByteRange v = true ∧ t.cursor < t.len ∧
      t.setCell v = .done { t with cells := Memory.write t.cells t.cursor (BitVec.ofInt 8 v) }) ∨
    (inByteRange v = true ∧ t.len ≤ t.cursor ∧ t.setCell v = .noCell) ∨
    (inByteRange v = false ∧ t.setCell v = .raises .invalidByteValue) := by
  unfold Tape.setCell Tape.memWrite Tape.address
  cases hv : inByteRange v
  · simp
  · by_cases h : t.cursor < t.len
    · simp [h]
    · simp [h]; omega

/-- A byte is in range: the check of `set_cell` never fails in `,` (42_io.md R116). -/
theorem inByteRange_byte (v : Byte) : inByteRange (v.toNat : Int) = true := by
  have := v.isLt
  simp [inByteRange]
  omega

@[simp] theorem ofInt_byte (v : Byte) : BitVec.ofInt 8 (v.toNat : Int) = v := by
  simp

/-- `byteInc` is addition modulo 256. -/
theorem byteInc_toNat (v : Byte) : (byteInc v).toNat = (v.toNat + 1) % 256 := by
  simp [byteInc, BitVec.toNat_add]

/-- `byteDec` is subtraction modulo 256, of natural numbers. -/
theorem byteDec_toNat (v : Byte) : (byteDec v).toNat = (v.toNat + 255) % 256 := by
  simp [byteDec, BitVec.toNat_sub, Nat.add_comm]

theorem isZero_iff (v : Byte) : isZero v = true ↔ v = 0 := by
  simp [isZero]

theorem isZero_false_iff (v : Byte) : isZero v = false ↔ v ≠ 0 := by
  simp [isZero]

@[simp] theorem Tape.sequence_length (t : Tape) : t.sequence.length = t.len := by
  simp [Tape.sequence]

theorem Tape.sequence_getElem? (t : Tape) (a : Nat) :
    t.sequence[a]? = if a < t.len then some (Memory.read t.cells a) else none := by
  simp only [Tape.sequence, List.getElem?_map]
  split
  · simp_all
  · simp_all

end Sys2Proof.Machine
end

