-- ==== Sys2Proof/Laws/Step.lean ====
section
/-! SUPPORT. What each meaning and one step can do, said once. -/

namespace Sys2Proof.Machine

theorem execRight_next (s t : State) (h : execRight s = .next t) :
    (s.tape.cursor + 1 < s.tape.len ∧
      t = (s.withTape { s.tape with cursor := s.tape.cursor + 1 }).advance) ∨
    (s.tape.len ≤ s.tape.cursor + 1 ∧ fitsCap s.args.tapeCap (2 * s.tape.len) = true ∧
      t = (s.withTape { cells := Memory.below s.tape.len s.tape.cells, len := 2 * s.tape.len,
                        cursor := s.tape.cursor + 1 }).advance) := by
  unfold execRight at h
  rcases s.tape.incrementPointer_eq s.args.tapeCap with ⟨h1, h2⟩ | ⟨h1, h2, h3⟩ | ⟨_, _, h3⟩
  · rw [h2] at h; simp at h; exact .inl ⟨h1, h.symm⟩
  · rw [h3] at h; simp at h; exact .inr ⟨h1, h2, h.symm⟩
  · rw [h3] at h; simp at h

theorem execLeft_next (s t : State) (h : execLeft s = .next t) :
    (s.tape.cursor = 0 ∧ t = s.raise .negativeTapePointer) ∨
    (s.tape.cursor ≠ 0 ∧ t = (s.withTape { s.tape with cursor := s.tape.cursor - 1 }).advance) := by
  unfold execLeft at h
  rcases s.tape.decrementPointer_eq with ⟨h1, h2⟩ | ⟨h1, h2⟩
  · rw [h2] at h; simp at h; exact .inl ⟨h1, h.symm⟩
  · rw [h2] at h; simp at h; exact .inr ⟨h1, h.symm⟩

/-- What storing to the current cell leaves. -/
def State.storeCurrent (s : State) (v : Byte) : State :=
  s.withTape { s.tape with cells := Memory.write s.tape.cells s.tape.cursor v }

theorem execInc_next (s t : State) (h : execInc s = .next t) :
    s.tape.cursor < s.tape.len ∧
      t = (s.storeCurrent (byteInc (Memory.read s.tape.cells s.tape.cursor))).advance := by
  unfold execInc Tape.incrementCell at h
  rcases s.tape.modifyCell_eq byteInc with ⟨h1, h2⟩ | ⟨h1, h2⟩
  · rw [h2] at h; simp at h; exact ⟨h1, h.symm⟩
  · rw [h2] at h; simp at h

theorem execDec_next (s t : State) (h : execDec s = .next t) :
    s.tape.cursor < s.tape.len ∧
      t = (s.storeCurrent (byteDec (Memory.read s.tape.cells s.tape.cursor))).advance := by
  unfold execDec Tape.decrementCell at h
  rcases s.tape.modifyCell_eq byteDec with ⟨h1, h2⟩ | ⟨h1, h2⟩
  · rw [h2] at h; simp at h; exact ⟨h1, h.symm⟩
  · rw [h2] at h; simp at h

theorem execOut_next (s t : State) (h : execOut s = .next t) :
    s.tape.cursor < s.tape.len ∧ t = (s.emit (Memory.read s.tape.cells s.tape.cursor)).advance := by
  unfold execOut at h
  rcases s.tape.getCell_eq with ⟨h1, h2⟩ | ⟨h1, h2⟩
  · rw [h2] at h; simp at h; exact ⟨h1, h.symm⟩
  · rw [h2] at h; simp at h

theorem execInp_next (s t : State) (h : execInp s = .next t) :
    s.tape.cursor < s.tape.len ∧ t = (s.storeCurrent s.inputByte).advanceInput.advance := by
  unfold execInp at h
  rcases s.tape.setCell_eq s.inputByte.toNat with ⟨_, h1, h2⟩ | ⟨_, h1, h2⟩ | ⟨h1, _⟩
  · rw [h2] at h
    simp only [State.invoke_done, Host.Outcome.next.injEq, ofInt_byte] at h
    exact ⟨h1, h.symm⟩
  · rw [h2] at h; simp at h
  · rw [inByteRange_byte] at h1; cases h1

theorem execJz_next (s t : State) (h : execJz s = .next t) :
    s.tape.cursor < s.tape.len ∧
    ((Memory.read s.tape.cells s.tape.cursor ≠ 0 ∧ t = s.advance) ∨
     (Memory.read s.tape.cells s.tape.cursor = 0 ∧ t = s.jump (matchFwd s.program s.ip))) := by
  unfold execJz at h
  rcases s.tape.getCell_eq with ⟨h1, h2⟩ | ⟨h1, h2⟩
  · rw [h2] at h
    refine ⟨h1, ?_⟩
    by_cases hv : Memory.read s.tape.cells s.tape.cursor = 0
    · rw [State.invoke_done, if_pos ((isZero_iff _).mpr hv)] at h; simp at h; exact .inr ⟨hv, h.symm⟩
    · rw [State.invoke_done, if_neg (fun hz => hv ((isZero_iff _).mp hz))] at h; simp at h; exact .inl ⟨hv, h.symm⟩
  · rw [h2] at h; simp at h

theorem execJnz_next (s t : State) (h : execJnz s = .next t) :
    s.tape.cursor < s.tape.len ∧
    ((Memory.read s.tape.cells s.tape.cursor = 0 ∧ t = s.advance) ∨
     (Memory.read s.tape.cells s.tape.cursor ≠ 0 ∧ t = s.jump (matchBwd s.program s.ip))) := by
  unfold execJnz at h
  rcases s.tape.getCell_eq with ⟨h1, h2⟩ | ⟨h1, h2⟩
  · rw [h2] at h
    refine ⟨h1, ?_⟩
    by_cases hv : Memory.read s.tape.cells s.tape.cursor = 0
    · rw [State.invoke_done, if_pos ((isZero_iff _).mpr hv)] at h; simp at h; exact .inl ⟨hv, h.symm⟩
    · rw [State.invoke_done, if_neg (fun hz => hv ((isZero_iff _).mp hz))] at h; simp at h; exact .inr ⟨hv, h.symm⟩
  · rw [h2] at h; simp at h

theorem execSkip_next (c : Code) (s t : State) (h : execSkip c s = .next t) : t = s.advance := by
  unfold execSkip at h
  simp at h
  exact h.symm

/-- Everything a step that answers a next state can have done (41_dispatch_and_data.md R100). -/
theorem step_cases (s t : State) (h : step s = .next t) :
    (s.status ≠ .running ∧ t = s) ∨
    (s.status = .running ∧ s.plen ≤ s.ip ∧ t = s.halt) ∨
    (s.status = .running ∧ s.ip < s.plen ∧
      ∃ c, s.fetch = some c ∧ exec (decode s.args.charW c) s = .next t) := by
  unfold step at h
  cases hs : s.status with
  | running =>
    rw [hs] at h
    cases hf : s.fetch with
    | none =>
      rw [hf] at h
      simp at h
      refine .inr (.inl ⟨rfl, ?_, h.symm⟩)
      simpa [State.fetch, State.plen] using hf
    | some c =>
      rw [hf] at h
      refine .inr (.inr ⟨rfl, ?_, c, rfl, h⟩)
      have := hf
      unfold State.fetch at this
      exact (List.getElem?_eq_some_iff.mp this).1
  | halted => rw [hs] at h; simp at h; exact .inl ⟨by simp, h.symm⟩
  | faulted k => rw [hs] at h; simp at h; exact .inl ⟨by simp, h.symm⟩

theorem iterate_succ (f : State → Host.Outcome State Fault Refusal) (n : Nat) (s t : State)
    (h : f s = .next t) : iterate f (n + 1) s = iterate f n t := by
  rw [iterate, h]

/-! ### The growth schedule -/

/-- The schedule keeps the largest cursor on a cell (20_memory.md R59). -/
theorem lt_scheduledLen (m : Nat) : m < scheduledLen m := by
  unfold scheduledLen; split
  · omega
  · exact Nat.lt_log2_self

/-- The schedule starts at four cells. -/
theorem four_le_scheduledLen (m : Nat) : 4 ≤ scheduledLen m := by
  unfold scheduledLen; split
  · omega
  · have h : 2 ≤ Nat.log2 m := by rw [Nat.le_log2 (by omega)]; omega
    calc 4 = 2^2 := rfl
      _ ≤ 2^(Nat.log2 m + 1) := Nat.pow_le_pow_right (by omega) (by omega)

/-- The schedule does not change while the cursor stays within the length. -/
theorem scheduledLen_of_lt (m c : Nat) (hmc : m ≤ c) (h : c < scheduledLen m) : scheduledLen c = scheduledLen m := by
  unfold scheduledLen at *
  split at h
  · simp_all; omega
  · rename_i hm
    rw [if_neg hm, if_neg (by omega)]
    congr 2
    have h1 : Nat.log2 m ≤ Nat.log2 c := by
      rw [Nat.le_log2 (by omega)]; exact le_trans (Nat.log2_self_le (by omega)) hmc
    have h2 : Nat.log2 c < Nat.log2 m + 1 := by rw [Nat.log2_lt (by omega)]; exact h
    omega

/-- The schedule doubles where the cursor reaches the length. -/
theorem scheduledLen_scheduledLen (m : Nat) : scheduledLen (scheduledLen m) = 2 * scheduledLen m := by
  have hp := four_le_scheduledLen m
  have : ∃ k, scheduledLen m = 2 ^ k := by
    unfold scheduledLen; split
    · exact ⟨2, rfl⟩
    · exact ⟨_, rfl⟩
  obtain ⟨k, hk⟩ := this
  rw [hk] at hp ⊢
  rw [scheduledLen, if_neg (by omega), Nat.log2_two_pow, Nat.pow_succ, Nat.mul_comm]

end Sys2Proof.Machine
end

