-- ==== Sys2Proof/Tests/Slice0.lean ====
section
/-! SUPPORT. The model's own tests, and a witness for the hypotheses of each statement. Expected results are
from spec/95_test_vectors.md, whose vector is named, or worked out by hand from the rule named. -/

namespace Sys2Proof.Tests

open Sys2Proof Sys2Proof.Machine

/-! ### Helpers -/

/-- The canonical list of a sequence of cells. -/
def memOf (cells : List Byte) : List Host.Cell :=
  (cells.zipIdx.map (fun x => (x.2, x.1))).filter (fun x => x.2 != 0)

def tapeOf (cells : List Byte) (cursor : Nat) : Tape :=
  { cells := memOf cells, len := cells.length, cursor := cursor }

/-- A run in progress, written as the vectors write one: `(cells, cursor, ip, input_cursor, output)`. -/
def st (prog : List Code) (cells : List Byte) (cursor ip : Nat) (input : List Byte := []) (ic : Nat := 0)
    (out : List Byte := []) : State :=
  { State.present { RunArgs.absent with prog := prog, input := input } with
    tape := tapeOf cells cursor, ip := ip, inputCursor := ic, output := out }

/-- What the vectors show of a next state. -/
structure Shown where
  cells : List Byte
  cursor : Nat
  ip : Nat
  inputCursor : Nat
  output : List Byte
  status : Status
  deriving DecidableEq, Repr

def shown (s : State) : Shown :=
  { cells := s.tape.sequence, cursor := s.tape.cursor, ip := s.ip, inputCursor := s.inputCursor,
    output := s.output, status := s.status }

/-- The next state of an outcome, if there is one. -/
def after (o : Host.Outcome State Fault Refusal) : Option State :=
  match o with
  | .next s => some s
  | .fault _ => none
  | .refused _ => none

def view (o : Host.Outcome State Fault Refusal) : Option Shown := (after o).map shown

def isOverCap (o : Host.Outcome State Fault Refusal) : Bool :=
  match o with
  | .refused .tapeCapExceeded => true
  | _ => false

def tapeView (o : TapeOutcome (Tape × Option Byte)) : TapeOutcome (List Byte × Nat × Option Byte) :=
  match o with
  | .done r => .done (r.1.sequence, r.1.cursor, r.2)
  | .raises k => .raises k
  | .noCell => .noCell
  | .overCap => .overCap

/-! ### Decoding: the words of 30_encoding.md R73, bit by bit, and V-DECODE -/

theorem test_decode_right : decode 8 0b00111110 = .right := by decide
theorem test_decode_left : decode 8 0b00111100 = .left := by decide
theorem test_decode_inc : decode 8 0b00101011 = .inc := by decide
theorem test_decode_dec : decode 8 0b00101101 = .dec := by decide
theorem test_decode_out : decode 8 0b00101110 = .out := by decide
theorem test_decode_inp : decode 8 0b00101100 = .inp := by decide
theorem test_decode_jz : decode 8 0b01011011 = .jz := by decide
theorem test_decode_jnz : decode 8 0b01011101 = .jnz := by decide
theorem test_decode_skip : [0x00, 0x20, 0x0A, 0x3D, 0x2A, 0x2F, 0x5C, 0x7B, 0x7D, 0x41, 0xBE, 0xAB, 0xDB, 0xFF].map
    (decode 8) = [.skip 0x00, .skip 0x20, .skip 0x0A, .skip 0x3D, .skip 0x2A, .skip 0x2F, .skip 0x5C, .skip 0x7B,
      .skip 0x7D, .skip 0x41, .skip 0xBE, .skip 0xAB, .skip 0xDB, .skip 0xFF] := by decide
/-- A full-width plus sign is inert for characters of 16 bits (30_encoding.md R75). -/
theorem test_decode_wide : decode 16 0xFF0B = .skip 0xFF0B ∧ decode 16 0x2B = .inc := by decide
theorem test_table_word : decodeTableWord 8 0x5B = some .jz ∧ decodeTableWord 8 0 = some (.skip 0) := by decide

/-! ### WellFormed: an ill-formed term for each check -/

theorem test_wf_refuses_narrow_character : Instr.wf 6 .inc = false := by decide
theorem test_wf_refuses_wide_code : Instr.wf 8 (.skip 256) = false := by decide
theorem test_wf_refuses_operator_as_skip : Instr.wf 8 (.skip 0x2B) = false := by decide
theorem test_wf_takes_inert_code : Instr.wf 8 (.skip 0x41) = true := by decide

/-! ### One step of each instruction -/

/-- V-RIGHT. -/
theorem test_right_inside : view (step (st [0x3E] [1, 2, 3, 4] 2 0)) =
    some ⟨[1, 2, 3, 4], 3, 1, 0, [], .running⟩ := by decide
/-- V-RIGHT. -/
theorem test_right_grows : view (step (st [0x3E] [1, 2, 3, 4] 3 0)) =
    some ⟨[1, 2, 3, 4, 0, 0, 0, 0], 4, 1, 0, [], .running⟩ := by decide
/-- 20_memory.md R64: a cap of 7 cells forbids the growth to 8. -/
theorem test_right_beyond_cap : isOverCap (step
    { st [0x3E] [1, 2, 3, 4] 3 0 with args := ⟨[0x3E], [], 8, some 7⟩ }) = true := by decide
/-- V-LEFT. -/
theorem test_left : view (step (st [0x3C] [5, 6, 0, 0] 1 0)) =
    some ⟨[5, 6, 0, 0], 0, 1, 0, [], .running⟩ := by decide
/-- V-LEFT. -/
theorem test_left_at_origin : view (step (st [0x3C] [5, 6, 0, 0] 0 0)) =
    some ⟨[5, 6, 0, 0], 0, 0, 0, [], .faulted .negativeTapePointer⟩ := by decide
/-- V-INC. -/
theorem test_inc : view (step (st [0x2B] [1, 2, 3, 4] 2 0)) =
    some ⟨[1, 2, 4, 4], 2, 1, 0, [], .running⟩ := by decide
/-- 41_dispatch_and_data.md R106. -/
theorem test_inc_wraps : view (step (st [0x2B] [255, 0, 0, 0] 0 0)) =
    some ⟨[0, 0, 0, 0], 0, 1, 0, [], .running⟩ := by decide
/-- V-DEC. -/
theorem test_dec : view (step (st [0x2D] [128, 7, 0, 0] 0 0)) =
    some ⟨[127, 7, 0, 0], 0, 1, 0, [], .running⟩ := by decide
/-- 41_dispatch_and_data.md R107. -/
theorem test_dec_wraps : view (step (st [0x2D] [0, 0, 0, 0] 0 0)) =
    some ⟨[255, 0, 0, 0], 0, 1, 0, [], .running⟩ := by decide
/-- V-OUT. -/
theorem test_out_zero : view (step (st [0x2E] [0, 0, 0, 0] 0 0 [] 0 [1, 2])) =
    some ⟨[0, 0, 0, 0], 0, 1, 0, [1, 2, 0], .running⟩ := by decide
/-- V-OUT. -/
theorem test_out_unsigned : view (step (st [0x2E] [0, 255, 0, 0] 1 0)) =
    some ⟨[0, 255, 0, 0], 1, 1, 0, [255], .running⟩ := by decide
/-- V-IN. -/
theorem test_inp : view (step (st [0x2C] [9, 0, 0, 0] 0 0 [200])) =
    some ⟨[200, 0, 0, 0], 0, 1, 1, [], .running⟩ := by decide
/-- V-IN. -/
theorem test_inp_exhausted : view (step (st [0x2C] [9, 0, 0, 0] 0 0 [200] 1)) =
    some ⟨[0, 0, 0, 0], 0, 1, 2, [], .running⟩ := by decide
/-- V-JZ: `[[x]y]z`, the nested pair is skipped as a whole. -/
theorem test_jz_nested : view (step (st [0x5B, 0x5B, 0x78, 0x5D, 0x79, 0x5D, 0x7A] [0, 0, 0, 0] 0 0)) =
    some ⟨[0, 0, 0, 0], 0, 6, 0, [], .running⟩ := by decide
/-- V-JZ: `[[]`, the inner pair does not close the outer bracket. -/
theorem test_jz_unmatched : view (step (st [0x5B, 0x5B, 0x5D] [0, 0, 0, 0] 0 0)) =
    some ⟨[0, 0, 0, 0], 0, 0, 0, [], .faulted .unmatchedBracket⟩ := by decide
/-- V-JNZ: `++[-]` with cell 1. -/
theorem test_jnz_back : view (step (st [0x2B, 0x2B, 0x5B, 0x2D, 0x5D] [1, 0, 0, 0] 0 4)) =
    some ⟨[1, 0, 0, 0], 0, 3, 0, [], .running⟩ := by decide
/-- V-JNZ: `+]` with cell 1. -/
theorem test_jnz_unmatched : view (step (st [0x2B, 0x5D] [1, 0, 0, 0] 0 1)) =
    some ⟨[1, 0, 0, 0], 0, 1, 0, [], .faulted .unmatchedBracket⟩ := by decide
/-- V-SKIP. -/
theorem test_skip : view (step (st [0x2B, 0x61] [3, 0, 0, 0] 0 1 [4] 7 [5])) =
    some ⟨[3, 0, 0, 0], 0, 2, 7, [5], .running⟩ := by decide
/-- W11: the empty program halts at the first step. -/
theorem test_halt : view (step State.reset) = some ⟨[0, 0, 0, 0], 0, 0, 0, [], .halted⟩ := by decide
/-- 43_control_flow.md R132: `+[` passes its `[` with cell 1. -/
theorem test_unmatched_is_lazy : view (step (st [0x2B, 0x5B] [1, 0, 0, 0] 0 1)) =
    some ⟨[1, 0, 0, 0], 0, 2, 0, [], .running⟩ := by decide

/-! ### The host's way to place an instruction -/

theorem test_fetch_word_runs : view (step (State.reset.withFetchWord 8 0x3C)) =
    some ⟨[0, 0, 0, 0], 0, 0, 0, [], .faulted .negativeTapePointer⟩ := by decide
theorem test_fetch_word_pads : (State.withFetchWord { State.reset with ip := 2 } 8 0x2B).fetch = some 0x2B := by decide

/-! ### Scans: V-SCAN, `[a[b]c]d][` and `]][[` -/

def scanText : List Instr := decodeProgram 8 [0x5B, 0x61, 0x5B, 0x62, 0x5D, 0x63, 0x5D, 0x64, 0x5D, 0x5B]

theorem test_match_fwd : [0, 2, 9].map (matchFwd scanText) = [.found 6, .found 4, .unmatched] := by decide
theorem test_match_bwd : [4, 6, 8].map (matchBwd scanText) = [.found 2, .found 0, .unmatched] := by decide
theorem test_match_none : (matchFwd (decodeProgram 8 [0x5D, 0x5D, 0x5B, 0x5B]) 2,
    matchBwd (decodeProgram 8 [0x5D, 0x5D, 0x5B, 0x5B]) 1) = (.unmatched, .unmatched) := by decide

/-! ### The standalone Tape: V-TAPE -/

theorem test_tape_set_255 : tapeView ((tapeOf [7, 0, 0, 0] 0).perform none (.setCell 255)) =
    .done ([255, 0, 0, 0], 0, none) := by decide
theorem test_tape_set_256 : tapeView ((tapeOf [7, 0, 0, 0] 0).perform none (.setCell 256)) =
    .raises .invalidByteValue := by decide
theorem test_tape_set_negative : tapeView ((tapeOf [7, 0, 0, 0] 0).perform none (.setCell (-1))) =
    .raises .invalidByteValue := by decide
theorem test_tape_get : tapeView ((tapeOf [7, 0, 0, 0] 0).perform none .getCell) =
    .done ([7, 0, 0, 0], 0, some 7) := by decide
theorem test_tape_left : tapeView (Tape.fresh.perform none .decrementPointer) =
    .raises .negativeTapePointer := by decide
/-- 40_tape_ops.md R90. -/
theorem test_tape_right : tapeView ((tapeOf [1, 2, 3, 4] 3).perform none .incrementPointer) =
    .done ([1, 2, 3, 4, 0, 0, 0, 0], 4, none) := by decide

/-! ### Ticks: V-TICK -/

/-- `[.]` with cell 0: dispatch 1, scan 2. -/
theorem test_tick_cost_fwd : tickCost (st [0x5B, 0x2E, 0x5D] [0, 0, 0, 0] 0 0) = 3 := by decide
/-- `+]` with cell 1: 2 + i ticks for the failing scan at 1. -/
theorem test_tick_cost_fail : tickCost (st [0x2B, 0x5D] [1, 0, 0, 0] 0 1) = 3 := by decide
/-- 43_control_flow.md R134: the dispatch of a taken `[`. -/
theorem test_tick_begins_scan : (after (tick (st [0x5B, 0x2E, 0x5D] [0, 0, 0, 0] 0 0))).map
    (fun s => (s.phase, s.sp, s.depth, s.ip)) = some (.scanF, 0, 1, 0) := by decide
/-- 43_control_flow.md R135: the tick that finds the partner at 2. -/
theorem test_tick_lands : (after (tick ((st [0x5B, 0x2E, 0x5D] [0, 0, 0, 0] 0 0).setScan .scanF 1 1))).map
    (fun s => (s.phase, s.ip)) = some (.fetch, 3) := by decide

/-! ### Witnesses: for each statement with hypotheses, a state and operands that meet them -/

/-- A legal Tape of four cells with the cursor on the last, and one with it on the first. -/
theorem legal_tape_end : (tapeOf [1, 2, 3, 4] 3).Legal :=
  ⟨by decide, by decide, ⟨0, by decide⟩, by decide⟩
theorem legal_tape_start : (tapeOf [0, 0, 0, 0] 0).Legal :=
  ⟨by decide, by decide, ⟨0, by decide⟩, by decide⟩

/-- A legal state about to grow its tape. -/
theorem legal_state : (st [0x3E] [1, 2, 3, 4] 3 0).Legal :=
  ⟨⟨by decide, by decide, by decide⟩, legal_tape_end, by decide, by decide, by decide⟩

/-- A legal state whose cap forbids the growth it needs. -/
theorem legal_state_capped : State.Legal { st [0x3E] [1, 2, 3, 4] 3 0 with args := ⟨[0x3E], [], 8, some 7⟩ } :=
  ⟨⟨by decide, by decide, by decide⟩, legal_tape_end, by decide, by decide, by decide⟩

theorem witness_StepRunsDecodedInstruction :
    ((st [0x2B] [0, 0, 0, 0] 0 0).status = .running ∧ (st [0x2B] [0, 0, 0, 0] 0 0).args.prog[0]? = some 0x2B) ∧
    (st [0x2B] [0, 0, 0, 0] 0 1).args.prog.length ≤ (st [0x2B] [0, 0, 0, 0] 0 1).ip ∧
    (State.reset.halt).status ≠ .running := by decide
theorem witness_ResetMeetsInvariant : RunArgs.Legal ⟨[0x2B], [1], 8, some 4⟩ :=
  ⟨by decide, by decide, by decide⟩
theorem witness_DecodeEncodeAgree : Config.minCharW ≤ 7 ∧ Instr.wf 7 (.skip 127) = true ∧
    Instr.wf 7 .right = true ∧ 127 < 2 ^ 7 := by decide
theorem witness_IncrementPointerDoublesWhenOutOfBounds :
    ((tapeOf [1, 2, 3, 4] 2).cursor + 1 < (tapeOf [1, 2, 3, 4] 2).len) ∧
    ((tapeOf [1, 2, 3, 4] 3).cursor + 1 = (tapeOf [1, 2, 3, 4] 3).len ∧ fitsCap (some 8) 8 = true) := by decide
theorem witness_GrowDoublesAndOnlyRightGrows :
    after (exec .right (st [] [1, 2, 3, 4] 3 0)) =
      some ((st [] [1, 2, 3, 4] 3 0).withTape ⟨memOf [1, 2, 3, 4], 8, 4⟩).advance ∧
    after (exec .right (st [] [1, 2, 3, 4] 2 0)) = some (st [] [1, 2, 3, 4] 3 1) := by decide
theorem witness_DecrementPointerStopsAtOrigin : (tapeOf [0] 0).cursor = 0 ∧ (tapeOf [0, 0] 1).cursor ≠ 0 := by decide
theorem witness_CellArithmeticWraps : (tapeOf [255, 0, 0, 0] 0).cursor < (tapeOf [255, 0, 0, 0] 0).len := by decide
theorem witness_SetCellChecksBeforeWriting : (tapeOf [7, 0, 0, 0] 0).cursor < (tapeOf [7, 0, 0, 0] 0).len ∧
    ((0 : Int) ≤ 0 ∧ (0 : Int) ≤ 255) ∧ ((0 : Int) ≤ 255 ∧ (255 : Int) ≤ 255) := by decide
theorem witness_GetCellReturnsCurrentCell : (tapeOf [7, 0, 0, 9] 3).cursor < (tapeOf [7, 0, 0, 9] 3).len := by decide
theorem witness_TapeOperationsKeepTapeLegal : (tapeOf [1, 2, 3, 4] 3).Legal ∧
    (tapeOf [1, 2, 3, 4] 3).perform none .incrementPointer = .done (⟨memOf [1, 2, 3, 4], 8, 4⟩, none) :=
  ⟨legal_tape_end, by decide⟩
theorem witness_FullTurnRestoresCell : (tapeOf [9, 0, 0, 0] 0).cursor < (tapeOf [9, 0, 0, 0] 0).len ∧
    (tapeOf [9, 0] 1).incrementPointer none = .done ⟨memOf [9, 0], 4, 2⟩ ∧
    Tape.decrementPointer ⟨memOf [9, 0], 4, 2⟩ = .done ⟨memOf [9, 0], 4, 1⟩ := by decide
theorem witness_RightMovesAndGrows :
    ((st [] [1, 2, 3, 4] 2 0).tape.cursor + 1 < (st [] [1, 2, 3, 4] 2 0).tape.len) ∧
    ((st [] [1, 2, 3, 4] 3 0).tape.cursor + 1 = (st [] [1, 2, 3, 4] 3 0).tape.len ∧
      fitsCap (st [] [1, 2, 3, 4] 3 0).args.tapeCap 8 = true) := by decide
theorem witness_LeftMovesOrFaults : (st [] [1, 2, 3, 4] 1 0).tape.cursor ≠ 0 ∧ (st [] [1, 2, 3, 4] 0 0).tape.cursor = 0 := by decide
theorem witness_IncAndDecWrapCurrentCell : (st [] [255, 0, 0, 0] 0 0).tape.cursor < (st [] [255, 0, 0, 0] 0 0).tape.len := by decide
theorem witness_InertCharactersOnlyAdvance : (0x3D : Nat) < 2 ^ 8 ∧ isOperatorCode 0x3D = false := by decide
theorem witness_OutAppendsCurrentCell : (st [] [0, 0, 0, 255] 3 0).tape.cursor < (st [] [0, 0, 0, 255] 3 0).tape.len := by decide
theorem witness_InStoresInputByteOrZero :
    ((st [] [9] 0 0 [200]).tape.cursor < (st [] [9] 0 0 [200]).tape.len ∧
      (st [] [9] 0 0 [200]).args.input[(st [] [9] 0 0 [200]).inputCursor]? = some 200) ∧
    (st [] [9] 0 0 [200] 1).args.input.length ≤ (st [] [9] 0 0 [200] 1).inputCursor := by decide

/-- `[]` at its `[` with a cell, and `[` alone. -/
def atJz (prog : List Code) (v : Byte) : State := st prog [v, 0, 0, 0] 0 0
/-- The same at the second character. -/
def atJnz (prog : List Code) (v : Byte) : State := st prog [v, 0, 0, 0] 0 1

theorem witness_JzJumpsOnZero : (atJz [0x5B, 0x5D] 1).tape.cursor < (atJz [0x5B, 0x5D] 1).tape.len ∧
    Memory.read (atJz [0x5B, 0x5D] 1).tape.cells 0 ≠ 0 ∧ Memory.read (atJz [0x5B, 0x5D] 0).tape.cells 0 = 0 ∧
    matchFwd (atJz [0x5B, 0x5D] 0).program 0 = .found 1 ∧ matchFwd (atJz [0x5B] 0).program 0 = .unmatched := by decide
theorem witness_JnzJumpsOnNonzero : (atJnz [0x5B, 0x5D] 1).tape.cursor < (atJnz [0x5B, 0x5D] 1).tape.len ∧
    Memory.read (atJnz [0x5B, 0x5D] 0).tape.cells 0 = 0 ∧ Memory.read (atJnz [0x5B, 0x5D] 1).tape.cells 0 ≠ 0 ∧
    matchBwd (atJnz [0x5B, 0x5D] 1).program 1 = .found 0 ∧ matchBwd (atJnz [0x2B, 0x5D] 1).program 1 = .unmatched := by decide
theorem witness_StoringInstructionsFrame :
    after (exec .inc (st [] [1, 2] 1 0)) = some (st [] [1, 3] 1 1) ∧
    after (exec .inp (st [] [1, 2] 1 0 [8])) = some (st [] [1, 8] 1 1 [8] 1) := by decide
theorem witness_NonStoringInstructionsFrame :
    after (exec .out (st [] [1, 2, 3, 4] 3 0)) = some (st [] [1, 2, 3, 4] 3 1 [] 0 [4]) ∧
    after (exec (.skip 0) (st [] [1, 2, 3, 4] 3 0)) = some (st [] [1, 2, 3, 4] 3 1) ∧
    after (exec .left (st [] [1, 2] 0 0)) = some ((st [] [1, 2] 0 0).raise .negativeTapePointer) := by decide
theorem witness_NonStoringInstructionsFrame_legal : (st [0x3E] [1, 2, 3, 4] 3 0).tape.Legal ∧
    view (exec .right (st [0x3E] [1, 2, 3, 4] 3 0)) = some ⟨[1, 2, 3, 4, 0, 0, 0, 0], 4, 1, 0, [], .running⟩ :=
  ⟨legal_tape_end, by decide⟩
theorem witness_MatchFwdFindsFirstClosing : matchFwd scanText 0 = .found 6 ∧ 5 < scanText.length ∧
    countBetween scanText .jnz 1 6 ≤ countBetween scanText .jz 1 6 ∧ ClosesFwd scanText 0 6 := by
  unfold ClosesFwd; decide
theorem witness_MatchBwdFindsNearestOpening : 6 < scanText.length ∧ matchBwd scanText 6 = .found 0 := by decide
/-- `[a]` and `[+]` have their brackets at the same places. -/
theorem witness_ScansSeeBracketsAlone : ([.jz, .skip 0x61, .jnz] : List Instr).length = ([.jz, .inc, .jnz] : List Instr).length ∧
    ∀ k : Nat, (([.jz, .skip 0x61, .jnz] : List Instr)[k]? = some Instr.jz ↔ ([.jz, .inc, .jnz] : List Instr)[k]? = some Instr.jz) ∧
      (([.jz, .skip 0x61, .jnz] : List Instr)[k]? = some Instr.jnz ↔ ([.jz, .inc, .jnz] : List Instr)[k]? = some Instr.jnz) := by
  refine ⟨rfl, fun k => ?_⟩
  rcases k with _ | _ | _ | k <;> simp
/-- `[[]+]` is balanced, in a state whose step jumps. -/
theorem witness_BalancedProgramsNeverUnmatched :
    Balanced (st [0x5B, 0x5B, 0x5D, 0x2B, 0x5D] [0, 0, 0, 0] 0 0).program ∧
    view (step (st [0x5B, 0x5B, 0x5D, 0x2B, 0x5D] [0, 0, 0, 0] 0 0)) = some ⟨[0, 0, 0, 0], 0, 5, 0, [], .running⟩ :=
  ⟨.loop [.jz, .jnz, .inc] [] (.loop [] [.inc] .nil (.plain .inc [] (by decide) (by decide) .nil)) .nil, by decide⟩
/-- A step forward, a taken `[`, a taken `]`, and both brackets where they are not taken. -/
theorem witness_ControlTransfersStayInProgram :
    view (step (st [0x2B] [0, 0, 0, 0] 0 0)) = some ⟨[1, 0, 0, 0], 0, 1, 0, [], .running⟩ ∧
    view (step (atJz [0x5B, 0x5D] 0)) = some ⟨[0, 0, 0, 0], 0, 2, 0, [], .running⟩ ∧
    view (step (atJnz [0x5B, 0x5D] 1)) = some ⟨[1, 0, 0, 0], 0, 1, 0, [], .running⟩ ∧
    view (step (atJz [0x5B, 0x5D] 1)) = some ⟨[1, 0, 0, 0], 0, 1, 0, [], .running⟩ ∧
    view (step (atJnz [0x5B, 0x5D] 0)) = some ⟨[0, 0, 0, 0], 0, 2, 0, [], .running⟩ := by decide
theorem witness_FaultsExactlyWhenTheRulesSay :
    (st [0x3C] [0, 0, 0, 0] 0 0).status = .running ∧ (st [0x3C] [0, 0, 0, 0] 0 0).fetch = some 0x3C ∧
    view (step (st [0x3C] [0, 0, 0, 0] 0 0)) = some ⟨[0, 0, 0, 0], 0, 0, 0, [], .faulted .negativeTapePointer⟩ ∧
    view (step (atJz [0x5B] 0)) = some ⟨[0, 0, 0, 0], 0, 0, 0, [], .faulted .unmatchedBracket⟩ ∧
    view (step (atJnz [0x2B, 0x5D] 1)) = some ⟨[1, 0, 0, 0], 0, 1, 0, [], .faulted .unmatchedBracket⟩ := by decide
/-- A step from the fault itself, the one step that ends in it. -/
theorem witness_NoProgramRaisesInvalidByte :
    (after (step (State.reset.raise .invalidByteValue))).map (·.status) = some (.faulted .invalidByteValue) := by decide
theorem witness_HaltsExactlyOutsideProgram : State.reset.status = .running ∧
    after (step State.reset) = some State.reset.halt := by decide
theorem witness_TerminalStatesAbsorb : State.reset.halt.status ≠ .running := by decide
/-- The empty program ends (W11). -/
theorem witness_RunResultIsUnique : Yields RunArgs.absent (.ok []) := ⟨1, State.reset.halt, rfl, rfl⟩
theorem witness_TapeCursorStaysOnACell : (st [0x3E] [1, 2, 3, 4] 3 0).tape.cursor < (st [0x3E] [1, 2, 3, 4] 3 0).tape.len ∧
    view (step (st [0x3E] [1, 2, 3, 4] 3 0)) = some ⟨[1, 2, 3, 4, 0, 0, 0, 0], 4, 1, 0, [], .running⟩ := by decide
theorem witness_StepKeepsStateLegal : (st [0x3E] [1, 2, 3, 4] 3 0).Legal ∧
    view (step (st [0x3E] [1, 2, 3, 4] 3 0)) = some ⟨[1, 2, 3, 4, 0, 0, 0, 0], 4, 1, 0, [], .running⟩ :=
  ⟨legal_state, by decide⟩
theorem witness_LegalStatesAlwaysGoOn_capped :
    State.Legal { st [0x3E] [1, 2, 3, 4] 3 0 with args := ⟨[0x3E], [], 8, some 7⟩ } := legal_state_capped
theorem witness_LegalStatesAlwaysGoOn : (st [0x3E] [1, 2, 3, 4] 3 0).Legal := legal_state
theorem witness_RunArgumentsNeverChange :
    iterate step 1 State.reset = .next State.reset.halt ∧ iterate tick 1 State.reset = .next State.reset.halt := ⟨rfl, rfl⟩
/-- Two steps of `,.` on the input 7. -/
theorem witness_MonotonicQuantities :
    after (iterate step 2 (st [0x2C, 0x2E] [0, 0, 0, 0] 0 0 [7])) =
      some (st [0x2C, 0x2E] [7, 0, 0, 0] 0 2 [7] 1 [7]) := by decide
theorem witness_StreamsCountTheirInstructions :
    after (iterate step 2 (st [0x2C, 0x2E] [0, 0, 0, 0] 0 0 [7])) =
      some (st [0x2C, 0x2E] [7, 0, 0, 0] 0 2 [7] 1 [7]) ∧
    tally countsInp 2 (st [0x2C, 0x2E] [0, 0, 0, 0] 0 0 [7]) = 1 ∧
    tally countsOut 2 (st [0x2C, 0x2E] [0, 0, 0, 0] 0 0 [7]) = 1 := by decide
/-- `>>>>` grows the tape at its fourth step (V-RIGHT). -/
theorem witness_RunFollowsGrowthSchedule :
    view (iterate step 4 (State.present ⟨[0x3E, 0x3E, 0x3E, 0x3E], [], 8, none⟩)) =
      some ⟨[0, 0, 0, 0, 0, 0, 0, 0], 4, 4, 0, [], .running⟩ ∧
    peakCursor 4 (State.present ⟨[0x3E, 0x3E, 0x3E, 0x3E], [], 8, none⟩) = 4 ∧
    scheduledLen 4 = 8 ∧ scheduledLen 3 = 4 := by decide
/-- A tape of four cells and the same of eight, about to move past the fourth. -/
theorem witness_TapeLengthIsUnobservable :
    SameButLen (st [0x3E] [1, 2, 3, 4] 3 0) (st [0x3E] [1, 2, 3, 4, 0, 0, 0, 0] 3 0) :=
  ⟨legal_tape_end, ⟨by decide, by decide, ⟨1, by decide⟩, by decide⟩, by decide, by decide⟩
theorem witness_OutputIsNeverRead : after (step (st [0x2E] [5] 0 0)) = some (st [0x2E] [5] 0 1 [] 0 [5]) := by decide
theorem witness_TicksAgreeWithStep : (atJz [0x5B, 0x5D] 0).phase = .fetch ∧
    view (step (atJz [0x5B, 0x5D] 0)) = some ⟨[0, 0, 0, 0], 0, 2, 0, [], .running⟩ ∧
    tickCost (atJz [0x5B, 0x5D] 0) = 2 := by decide
/-- Mid-scan in both directions. -/
theorem witness_TickKeepsScanRegistersLegal :
    ((atJz [0x5B, 0x5D] 0).setScan .scanF 0 1).ScanLegal ∧ ((atJnz [0x5B, 0x5D] 1).setScan .scanB 1 1).ScanLegal :=
  ⟨⟨by decide, by decide, by decide, by decide, by decide⟩, ⟨by decide, by decide, by decide, by decide, by decide⟩⟩
theorem witness_ScanTicksTouchNothingElse :
    ((atJz [0x5B, 0x5D] 0).setScan .scanF 0 1).phase ≠ .fetch ∧
    ((atJz [0x5B, 0x5D] 0).setScan .scanF 0 1).status = .running ∧
    view (tick ((atJz [0x5B, 0x5D] 0).setScan .scanF 0 1)) = some ⟨[0, 0, 0, 0], 0, 2, 0, [], .running⟩ := by decide
/-- `>` at the right end of four cells, and one cell before it. -/
theorem witness_StepKeepsGrowthSchedule :
    (st [0x3E] [1, 2, 3, 4] 3 0).tape.cursor ≤ 3 ∧ (st [0x3E] [1, 2, 3, 4] 3 0).tape.len = scheduledLen 3 ∧
    view (step (st [0x3E] [1, 2, 3, 4] 3 0)) = some ⟨[1, 2, 3, 4, 0, 0, 0, 0], 4, 1, 0, [], .running⟩ ∧
    view (step (st [0x3E] [1, 2, 3, 4] 2 0)) = some ⟨[1, 2, 3, 4], 3, 1, 0, [], .running⟩ ∧
    scheduledLen 4 = 8 := by decide

end Sys2Proof.Tests
end

namespace Sys2Proof.Machine

/-! ### The Tape's operations where they complete (40_tape_ops.md), as rewriting rules -/

theorem Tape.incrementPointer_of_lt (cap : Option Nat) (t : Tape) (h : t.cursor + 1 < t.len) :
    t.incrementPointer cap = .done { t with cursor := t.cursor + 1 } := by
  rcases t.incrementPointer_eq cap with ⟨_, heq⟩ | ⟨hle, _⟩ | ⟨hle, _⟩
  · exact heq
  · omega
  · omega

theorem Tape.incrementPointer_of_le (cap : Option Nat) (t : Tape) (h : t.len ≤ t.cursor + 1)
    (hcap : fitsCap cap (2 * t.len) = true) :
    t.incrementPointer cap = .done { t.grow with cursor := t.cursor + 1 } := by
  rcases t.incrementPointer_eq cap with ⟨hlt, _⟩ | ⟨_, _, heq⟩ | ⟨_, hno, _⟩
  · omega
  · exact heq
  · simp [hcap] at hno

theorem Tape.decrementPointer_of_zero (t : Tape) (h : t.cursor = 0) :
    t.decrementPointer = .raises .negativeTapePointer :=
  if_pos h

theorem Tape.decrementPointer_of_ne_zero (t : Tape) (h : t.cursor ≠ 0) :
    t.decrementPointer = .done { t with cursor := t.cursor - 1 } :=
  if_neg h

/-- The byte that the instructions read: the cell at the cursor. -/
def State.current (s : State) : Byte := Memory.read s.tape.cells s.tape.cursor

theorem State.getCell_of_lt (s : State) (h : s.tape.cursor < s.tape.len) :
    s.tape.getCell = .done s.current :=
  if_pos h

theorem Tape.modifyCell_of_lt (t : Tape) (f : Byte → Byte) (h : t.cursor < t.len) :
    t.modifyCell f =
      .done { t with cells := Memory.write t.cells t.cursor (f (Memory.read t.cells t.cursor)) } := by
  rcases t.modifyCell_eq f with ⟨_, heq⟩ | ⟨hle, _⟩
  · exact heq
  · omega

/-- `set_cell` of a byte, which is always in range (42_io.md R117). -/
theorem Tape.setCell_byte_of_lt (t : Tape) (v : Byte) (h : t.cursor < t.len) :
    t.setCell v.toNat = .done { t with cells := Memory.write t.cells t.cursor v } := by
  rcases t.setCell_eq v.toNat with ⟨_, _, heq⟩ | ⟨_, hle, _⟩ | ⟨hno, _⟩
  · rw [heq, ofInt_byte]
  · omega
  · simp [inByteRange_byte] at hno

/-! ### Where a Tape operation finds no cell (log 6) -/

theorem Tape.getCell_eq_noCell_iff (t : Tape) : t.getCell = .noCell ↔ t.len ≤ t.cursor := by
  rcases t.getCell_eq with ⟨h, heq⟩ | ⟨h, heq⟩ <;> simp [heq, h]

theorem Tape.modifyCell_eq_noCell_iff (t : Tape) (f : Byte → Byte) :
    t.modifyCell f = .noCell ↔ t.len ≤ t.cursor := by
  rcases t.modifyCell_eq f with ⟨h, heq⟩ | ⟨h, heq⟩ <;> simp [heq, h]

theorem Tape.setCell_byte_eq_noCell_iff (t : Tape) (v : Byte) :
    t.setCell v.toNat = .noCell ↔ t.len ≤ t.cursor := by
  rcases t.setCell_eq v.toNat with ⟨_, h, heq⟩ | ⟨_, h, heq⟩ | ⟨hno, _⟩
  · simp only [heq]; simp [h]
  · simp [heq, h]
  · simp [inByteRange_byte] at hno

theorem Tape.incrementPointer_ne_noCell (cap : Option Nat) (t : Tape) :
    t.incrementPointer cap ≠ .noCell := by
  rcases t.incrementPointer_eq cap with ⟨_, heq⟩ | ⟨_, _, heq⟩ | ⟨_, _, heq⟩ <;> simp [heq]

theorem Tape.decrementPointer_ne_noCell (t : Tape) : t.decrementPointer ≠ .noCell := by
  rcases t.decrementPointer_eq with ⟨_, heq⟩ | ⟨_, heq⟩ <;> simp [heq]

/-! ### The Engine's invocations, jumps and stores -/

/-- An invocation stops with the model's fault where the operation finds no cell or the continuation
stops. -/
theorem State.invoke_fault_iff {α : Type} (s : State) (r : TapeOutcome α)
    (k : α → Host.Outcome State Fault Refusal) (f : Fault) :
    s.invoke r k = .fault f ↔
      (∃ a, r = .done a ∧ k a = .fault f) ∨ (r = .noCell ∧ f = .cellOutOfRange) := by
  cases r <;> simp [eq_comm]

/-- An invocation of `get_cell` goes on with the current cell. -/
theorem State.invoke_getCell_next {s t : State} {k : Byte → Host.Outcome State Fault Refusal}
    (h : s.invoke s.tape.getCell k = .next t) :
    s.tape.cursor < s.tape.len ∧ k s.current = .next t := by
  by_cases hc : s.tape.cursor < s.tape.len
  · exact ⟨hc, by simpa [s.getCell_of_lt hc] using h⟩
  · simp [(Tape.getCell_eq_noCell_iff s.tape).mpr (by omega)] at h

@[simp] theorem State.jump_args (s : State) (r : ScanResult) : (s.jump r).args = s.args := by
  cases r <;> rfl

@[simp] theorem State.jump_tape (s : State) (r : ScanResult) : (s.jump r).tape = s.tape := by
  cases r <;> rfl

@[simp] theorem State.jump_inputCursor (s : State) (r : ScanResult) :
    (s.jump r).inputCursor = s.inputCursor := by
  cases r <;> rfl

@[simp] theorem State.jump_output (s : State) (r : ScanResult) : (s.jump r).output = s.output := by
  cases r <;> rfl

@[simp] theorem State.storeCurrent_args (s : State) (v : Byte) : (s.storeCurrent v).args = s.args := rfl
@[simp] theorem State.storeCurrent_ip (s : State) (v : Byte) : (s.storeCurrent v).ip = s.ip := rfl
@[simp] theorem State.storeCurrent_inputCursor (s : State) (v : Byte) :
    (s.storeCurrent v).inputCursor = s.inputCursor := rfl
@[simp] theorem State.storeCurrent_output (s : State) (v : Byte) :
    (s.storeCurrent v).output = s.output := rfl
@[simp] theorem State.storeCurrent_status (s : State) (v : Byte) :
    (s.storeCurrent v).status = s.status := rfl
@[simp] theorem State.storeCurrent_tape (s : State) (v : Byte) :
    (s.storeCurrent v).tape =
      { s.tape with cells := Memory.write s.tape.cells s.tape.cursor v } := rfl

/-! ### The effect of an instruction (41_dispatch_and_data.md R104 to R108, 42_io.md, 43_control_flow.md) -/

/-- `Effect i s t`: instruction `i` takes `s` to `t`, one constructor for each way an instruction can
complete or enter a fault of the hardware. `exec_eq_next_iff` ties it to `exec`. -/
inductive Effect : Instr → State → State → Prop where
  | rightInside {s : State} (h : s.tape.cursor + 1 < s.tape.len) :
      Effect .right s (s.withTape { s.tape with cursor := s.tape.cursor + 1 }).advance
  | rightGrows {s : State} (h : s.tape.len ≤ s.tape.cursor + 1)
      (hcap : fitsCap s.args.tapeCap (2 * s.tape.len) = true) :
      Effect .right s (s.withTape { s.tape.grow with cursor := s.tape.cursor + 1 }).advance
  | leftMoves {s : State} (h : s.tape.cursor ≠ 0) :
      Effect .left s (s.withTape { s.tape with cursor := s.tape.cursor - 1 }).advance
  | leftFaults {s : State} (h : s.tape.cursor = 0) :
      Effect .left s (s.raise .negativeTapePointer)
  | inc {s : State} (h : s.tape.cursor < s.tape.len) :
      Effect .inc s (s.storeCurrent (byteInc s.current)).advance
  | dec {s : State} (h : s.tape.cursor < s.tape.len) :
      Effect .dec s (s.storeCurrent (byteDec s.current)).advance
  | out {s : State} (h : s.tape.cursor < s.tape.len) : Effect .out s (s.emit s.current).advance
  | inp {s : State} (h : s.tape.cursor < s.tape.len) :
      Effect .inp s (s.storeCurrent s.inputByte).advanceInput.advance
  | jzFalls {s : State} (h : s.tape.cursor < s.tape.len) (hv : s.current ≠ 0) :
      Effect .jz s s.advance
  | jzTaken {s : State} (h : s.tape.cursor < s.tape.len) (hv : s.current = 0) :
      Effect .jz s (s.jump (matchFwd s.program s.ip))
  | jnzFalls {s : State} (h : s.tape.cursor < s.tape.len) (hv : s.current = 0) :
      Effect .jnz s s.advance
  | jnzTaken {s : State} (h : s.tape.cursor < s.tape.len) (hv : s.current ≠ 0) :
      Effect .jnz s (s.jump (matchBwd s.program s.ip))
  | skip {s : State} (c : Code) : Effect (.skip c) s s.advance

/-- What `exec` answers has one of the listed effects. -/
theorem Effect.of_exec {i : Instr} {s t : State} (h : exec i s = .next t) : Effect i s t := by
  cases i with
  | right =>
    obtain ⟨hlt, rfl⟩ | ⟨hle, hcap, rfl⟩ := execRight_next s t h
    · exact .rightInside hlt
    · exact .rightGrows hle hcap
  | left =>
    obtain ⟨h0, rfl⟩ | ⟨hne, rfl⟩ := execLeft_next s t h
    · exact .leftFaults h0
    · exact .leftMoves hne
  | inc => obtain ⟨hc, rfl⟩ := execInc_next s t h; exact .inc hc
  | dec => obtain ⟨hc, rfl⟩ := execDec_next s t h; exact .dec hc
  | out => obtain ⟨hc, rfl⟩ := execOut_next s t h; exact .out hc
  | inp => obtain ⟨hc, rfl⟩ := execInp_next s t h; exact .inp hc
  | jz =>
    obtain ⟨hc, ⟨hv, rfl⟩ | ⟨hv, rfl⟩⟩ := execJz_next s t h
    · exact .jzFalls hc hv
    · exact .jzTaken hc hv
  | jnz =>
    obtain ⟨hc, ⟨hv, rfl⟩ | ⟨hv, rfl⟩⟩ := execJnz_next s t h
    · exact .jnzFalls hc hv
    · exact .jnzTaken hc hv
  | skip c => rw [execSkip_next c s t h]; exact .skip c

/-- Each of the listed effects is what `exec` answers. -/
theorem Effect.exec_eq {i : Instr} {s t : State} (h : Effect i s t) : exec i s = .next t := by
  cases h with
  | rightInside h => simp [exec, execRight, Tape.incrementPointer_of_lt _ _ h]
  | rightGrows h hcap => simp [exec, execRight, Tape.incrementPointer_of_le _ _ h hcap]
  | leftMoves h => simp [exec, execLeft, Tape.decrementPointer_of_ne_zero _ h]
  | leftFaults h => simp [exec, execLeft, Tape.decrementPointer_of_zero _ h]
  | inc h =>
    simp [exec, execInc, Tape.incrementCell, Tape.modifyCell_of_lt _ _ h, State.storeCurrent,
      State.current]
  | dec h =>
    simp [exec, execDec, Tape.decrementCell, Tape.modifyCell_of_lt _ _ h, State.storeCurrent,
      State.current]
  | out h => simp [exec, execOut, s.getCell_of_lt h]
  | inp h => simp only [exec, execInp, Tape.setCell_byte_of_lt _ _ h, State.invoke_done, State.storeCurrent]
  | jzFalls h hv =>
    simp [exec, execJz, s.getCell_of_lt h, (isZero_false_iff _).mpr hv]
  | jzTaken h hv =>
    simp [exec, execJz, s.getCell_of_lt h, (isZero_iff _).mpr hv]
  | jnzFalls h hv =>
    simp [exec, execJnz, s.getCell_of_lt h, (isZero_iff _).mpr hv]
  | jnzTaken h hv =>
    simp [exec, execJnz, s.getCell_of_lt h, (isZero_false_iff _).mpr hv]
  | skip c => rfl

/-- `exec` answers exactly the listed effects. -/
theorem exec_eq_next_iff {i : Instr} {s t : State} : exec i s = .next t ↔ Effect i s t :=
  ⟨Effect.of_exec, Effect.exec_eq⟩

/-- No instruction writes the arguments of the run (10_state.md R36). -/
theorem Effect.args_eq {i : Instr} {s t : State} (h : Effect i s t) : t.args = s.args := by
  cases h <;> simp

/-! ### One step, by the status and the character fetched (41_dispatch_and_data.md R100, R101) -/

theorem fetch_eq_none_iff (s : State) : s.fetch = none ↔ s.plen ≤ s.ip := by
  simp [State.fetch, State.plen]

theorem step_of_fetch {s : State} {c : Code} (hs : s.status = .running) (hf : s.fetch = some c) :
    step s = exec (decode s.args.charW c) s := by
  simp [step, hs, hf]

theorem step_of_fetch_none {s : State} (hs : s.status = .running) (hf : s.fetch = none) :
    step s = .next s.halt := by
  simp [step, hs, hf]

theorem step_of_not_running {s : State} (hs : s.status ≠ .running) : step s = .next s := by
  cases h : s.status with
  | running => exact absurd h hs
  | halted => simp [step, h]
  | faulted k => simp [step, h]

/-! ### A legal Tape stays legal (10_state.md R22, R24) -/

theorem Tape.Legal.withCursor {t : Tape} (h : t.Legal) {c : Nat} (hc : c < t.len) :
    Tape.Legal { t with cursor := c } :=
  ⟨h.cells_wf, h.cells_below, h.len_doubled, hc⟩

/-- A legal Tape has the four cells of reset at least (10_state.md R22). -/
theorem Tape.Legal.four_le_len {t : Tape} (h : t.Legal) : 4 ≤ t.len := by
  obtain ⟨k, hk⟩ := h.len_doubled
  have hpos : 0 < 2 ^ k := Nat.two_pow_pos k
  simp only [Config.initialLen] at hk
  omega

/-- Growing a legal Tape doubles its length and drops no entry. -/
theorem Tape.Legal.grow_eq {t : Tape} (h : t.Legal) : t.grow = { t with len := 2 * t.len } := by
  rw [Tape.grow, Memory.below_eq_self _ _ h.cells_below]

theorem Tape.Legal.grown {t : Tape} (h : t.Legal) {c : Nat} (hc : c < 2 * t.len) :
    Tape.Legal { t.grow with cursor := c } := by
  rw [h.grow_eq]
  refine ⟨h.cells_wf, fun x hx => ?_, ?_, hc⟩
  · exact (h.cells_below x hx).trans_le (Nat.le_mul_of_pos_left _ (by omega))
  · obtain ⟨k, hk⟩ := h.len_doubled
    exact ⟨k + 1, by simp only [hk, pow_succ]; ring⟩

theorem Tape.Legal.stored {t : Tape} (h : t.Legal) (v : Byte) :
    Tape.Legal { t with cells := Memory.write t.cells t.cursor v } := by
  refine ⟨Memory.wf_write _ _ _ h.cells_wf, fun x hx => ?_, h.len_doubled, h.cursor_lt⟩
  rcases Memory.mem_write _ _ _ _ hx with hmem | haddr
  · exact h.cells_below x hmem
  · exact haddr ▸ h.cursor_lt

/-- Every instruction keeps the Tape legal. -/
theorem Effect.tape_legal {i : Instr} {s t : State} (h : Effect i s t) (hs : s.tape.Legal) :
    t.tape.Legal := by
  have hc := hs.cursor_lt
  cases h with
  | rightInside h => exact hs.withCursor h
  | rightGrows => exact hs.grown (by have := hs.four_le_len; omega)
  | leftMoves => exact hs.withCursor (by omega)
  | inc => exact hs.stored _
  | dec => exact hs.stored _
  | inp => exact hs.stored _
  | jzTaken => simpa using hs
  | jnzTaken => simpa using hs
  | _ => exact hs

/-! ### The length of the tape is not observable (10_state.md R22, 92_eei_decisions.md D25) -/

/-- The state with another number of cells. -/
def State.withLen (s : State) (n : Nat) : State := s.withTape { s.tape with len := n }

theorem State.withLen_jump (s : State) (n : Nat) (r : ScanResult) :
    (s.withLen n).jump r = (s.jump r).withLen n := by
  cases r <;> rfl

/-- Without a cap `>` moves a legal Tape's cursor by one and adds no entry, whatever the length. -/
theorem exec_right_of_legal {s : State} (hs : s.tape.Legal) (hcap : s.args.tapeCap = none) :
    ∃ n, exec .right s =
      .next (State.withLen (s.withTape { s.tape with cursor := s.tape.cursor + 1 }).advance n) := by
  by_cases h : s.tape.cursor + 1 < s.tape.len
  · exact ⟨s.tape.len, (Effect.rightInside h).exec_eq⟩
  · refine ⟨2 * s.tape.len, ?_⟩
    rw [(Effect.rightGrows (by omega) (by simp [fitsCap, hcap])).exec_eq, hs.grow_eq]
    rfl

/-- Every instruction but `>` commutes with a change of the length that leaves the cursor on a cell. -/
theorem Effect.withLen {i : Instr} {s t : State} {n : Nat} (h : Effect i s t) (hi : i ≠ .right)
    (hn : s.tape.cursor < n) : Effect i (s.withLen n) (t.withLen n) := by
  cases h with
  | rightInside => exact absurd rfl hi
  | rightGrows => exact absurd rfl hi
  | leftMoves h => exact .leftMoves h
  | leftFaults h => exact .leftFaults h
  | inc => exact .inc hn
  | dec => exact .dec hn
  | out => exact .out hn
  | inp => exact .inp hn
  | jzFalls _ hv => exact .jzFalls hn hv
  | jzTaken _ hv => rw [← State.withLen_jump]; exact .jzTaken hn hv
  | jnzFalls _ hv => exact .jnzFalls hn hv
  | jnzTaken _ hv => rw [← State.withLen_jump]; exact .jnzTaken hn hv
  | skip c => exact .skip c

/-- An instruction on a tape of another length does the same, on a tape of some length. -/
theorem Effect.exists_withLen {i : Instr} {s t : State} {n : Nat} (h : Effect i s t)
    (hs : s.tape.Legal) (hn : (s.withLen n).tape.Legal) (hcap : s.args.tapeCap = none) :
    ∃ m, Effect i (s.withLen n) (t.withLen m) := by
  by_cases hi : i = .right
  · subst hi
    obtain ⟨k, hk⟩ := exec_right_of_legal hs hcap
    obtain ⟨m, hm⟩ := exec_right_of_legal hn hcap
    obtain rfl : _ = t := by simpa [hk] using h.exec_eq
    exact ⟨m, .of_exec hm⟩
  · exact ⟨n, h.withLen hi hn.cursor_lt⟩

theorem SameButLen.withLen_eq {s t : State} (h : SameButLen s t) : s.withLen t.tape.len = t := h.rest

theorem SameButLen.of_withLen {s t : State} {m : Nat} (hs : s.tape.Legal) (ht : t.tape.Legal)
    (hcap : s.args.tapeCap = none) (h : t = s.withLen m) : SameButLen s t :=
  ⟨hs, ht, hcap, by subst h; rfl⟩

/-- The simulation for one instruction. -/
theorem SameButLen.exec {s t s' : State} {i : Instr} (h : SameButLen s t)
    (hi : exec i s = .next s') : ∃ t', exec i t = .next t' ∧ SameButLen s' t' := by
  have heff := Effect.of_exec hi
  obtain ⟨m, hm⟩ := heff.exists_withLen h.left_tape (h.withLen_eq ▸ h.right_tape) h.no_cap
  rw [h.withLen_eq] at hm
  exact ⟨_, hm.exec_eq, .of_withLen (heff.tape_legal h.left_tape) (hm.tape_legal h.right_tape)
    (heff.args_eq ▸ h.no_cap) rfl⟩

/-- The simulation for one step. -/
theorem SameButLen.step {s t s' : State} (h : SameButLen s t) (hs : step s = .next s') :
    ∃ t', step t = .next t' ∧ SameButLen s' t' := by
  have hstatus : t.status = s.status := by rw [← h.withLen_eq]; rfl
  have hfetch : t.fetch = s.fetch := by rw [← h.withLen_eq]; rfl
  have hargs : t.args = s.args := by rw [← h.withLen_eq]; rfl
  rcases step_cases s s' hs with ⟨hrun, rfl⟩ | ⟨hrun, hip, rfl⟩ | ⟨hrun, _, c, hc, hexec⟩
  · exact ⟨t, step_of_not_running (hstatus ▸ hrun), h⟩
  · refine ⟨t.halt, step_of_fetch_none (hstatus ▸ hrun) ?_, h.left_tape, h.right_tape, h.no_cap, ?_⟩
    · rw [hfetch]; exact (fetch_eq_none_iff s).mpr hip
    · exact congrArg State.halt h.rest
  · rw [step_of_fetch (hstatus ▸ hrun) (hfetch ▸ hc), hargs]
    exact h.exec hexec

theorem SameButLen.result_eq {s t : State} (h : SameButLen s t) : s.result = t.result := by
  rw [← h.withLen_eq]; rfl

/-- Settles O46: a legal cursor is on a cell of both tapes, so a test of the length can differ in `>` alone,
which without a cap moves the cursor on either side of its test. -/
theorem tapeLengthIsUnobservable : Obligations.TapeLengthIsUnobservable :=
  fun _ _ h => ⟨h.result_eq, fun _ hs => h.step hs⟩

/-! ### Where the model stops with a fault of its own (log 6) -/

/-- Settles O24: the six instructions that need the current cell ask the Tape for it before anything else,
and the other three ask for none. -/
theorem cellAccessOutsideTapeStops : Obligations.CellAccessOutsideTapeStops := by
  intro i s f
  cases i with
  | right => simp [exec, execRight, State.invoke_fault_iff, Tape.incrementPointer_ne_noCell]
  | left => simp [exec, execLeft, State.invoke_fault_iff, Tape.decrementPointer_ne_noCell]
  | inc =>
    simp [exec, execInc, Tape.incrementCell, State.invoke_fault_iff, Tape.modifyCell_eq_noCell_iff,
      and_comm]
  | dec =>
    simp [exec, execDec, Tape.decrementCell, State.invoke_fault_iff, Tape.modifyCell_eq_noCell_iff,
      and_comm]
  | out => simp [exec, execOut, State.invoke_fault_iff, Tape.getCell_eq_noCell_iff, and_comm]
  | inp =>
    simp only [exec, execInp, State.invoke_fault_iff, Tape.setCell_byte_eq_noCell_iff]
    simp [and_comm]
  | jz => simp [exec, execJz, State.invoke_fault_iff, Tape.getCell_eq_noCell_iff, and_comm]
  | jnz => simp [exec, execJnz, State.invoke_fault_iff, Tape.getCell_eq_noCell_iff, and_comm]
  | skip c => simp [exec, execSkip]

/-- While the cursor is on a cell no step stops with a fault (10_state.md R24). -/
theorem step_ne_fault {s : State} (hc : s.tape.cursor < s.tape.len) (f : Fault) : step s ≠ .fault f := by
  by_cases hs : s.status = .running
  · cases hf : s.fetch with
    | none => simp [step_of_fetch_none hs hf]
    | some c =>
      rw [step_of_fetch hs hf, Ne, cellAccessOutsideTapeStops]
      omega
  · simp [step_of_not_running hs]

/-! ### Where control goes (10_state.md R27, 43_control_flow.md R140) -/

/-- A scan stops at a closing character: only that brings a positive counter to 0. -/
theorem scan_closes {o c : Instr} {p : List Instr} {d k : Nat} (hd : d ≠ 0)
    (h : scan o c d p = some k) : p[k]? = some c := by
  induction p generalizing d k with
  | nil => simp at h
  | cons i p ih =>
    rw [scan_cons] at h
    split at h
    · next hz =>
      obtain rfl : 0 = k := by simpa using h
      by_contra hne
      have hic : i ≠ c := by simpa using hne
      simp only [nest, if_neg hic] at hz
      split at hz <;> omega
    · next hnz =>
      obtain ⟨j, hj, rfl⟩ := Option.map_eq_some_iff.mp h
      simpa using ih hnz hj

/-- The partner of `[` is a `]`. -/
theorem matchFwd_closes {p : List Instr} {i j : Nat} (h : matchFwd p i = .found j) :
    p[j]? = some .jnz := by
  unfold matchFwd at h
  split at h
  · next k hk =>
    obtain rfl : i + 1 + k = j := by simpa using h
    simpa using scan_closes one_ne_zero hk
  · cases h

/-- The partner of a `]` of the program is a `[`. -/
theorem matchBwd_opens {p : List Instr} {i j : Nat} (hi : i < p.length)
    (h : matchBwd p i = .found j) : p[j]? = some .jz := by
  unfold matchBwd at h
  split at h
  · next k hk =>
    obtain rfl : i - 1 - k = j := by simpa using h
    have hlen : (p.take i).length = i := by simp; omega
    have hki : k < i := by simpa [hlen] using scan_lt _ _ _ _ _ hk
    have hstop := scan_closes one_ne_zero hk
    rwa [List.getElem?_reverse (by omega), hlen, List.getElem?_take_of_lt (by omega)] at hstop
  · cases h

@[simp] theorem State.program_length (s : State) : s.program.length = s.plen := by
  simp [State.program, decodeProgram, State.plen]

/-- A taken jump that does not fault found its partner. -/
theorem State.jump_running {s : State} {r : ScanResult} (h : (s.jump r).status = .running) :
    r = .found ((s.jump r).ip - 1) ∧ 1 ≤ (s.jump r).ip := by
  cases r with
  | found j => simp
  | unmatched => simp at h

/-- A taken `[` that does not fault goes forward, past the `]` its scan found. -/
theorem Effect.jz_goes_forward {s t : State} (h : Effect .jz s t) (hv : s.current = 0)
    (ht : t.status = .running) :
    s.ip + 1 < t.ip ∧ matchFwd s.program s.ip = .found (t.ip - 1) ∧
      s.program[t.ip - 1]? = some .jnz := by
  cases h with
  | jzFalls _ hne => exact absurd hv hne
  | jzTaken =>
    obtain ⟨hfound, _⟩ := State.jump_running ht
    have hafter := (matchFwd_found _ _ _ hfound).1
    exact ⟨by omega, hfound, matchFwd_closes hfound⟩

/-- A taken `]` of the program that does not fault goes back, past the `[` its scan found. -/
theorem Effect.jnz_goes_back {s t : State} (h : Effect .jnz s t) (hip : s.ip < s.plen)
    (hv : s.current ≠ 0) (ht : t.status = .running) :
    t.ip ≤ s.ip ∧ 1 ≤ t.ip ∧ matchBwd s.program s.ip = .found (t.ip - 1) ∧
      s.program[t.ip - 1]? = some .jz := by
  cases h with
  | jnzFalls _ hz => exact absurd hz hv
  | jnzTaken =>
    obtain ⟨hfound, hpos⟩ := State.jump_running ht
    have hbefore := matchBwd_found _ _ _ hfound
    exact ⟨by omega, hpos, hfound, matchBwd_opens (by simpa using hip) hfound⟩

/-- Where no jump is taken and no fault entered, `ip` advances by 1. -/
theorem Effect.ip_eq_succ {i : Instr} {s t : State} (h : Effect i s t) (ht : t.status = .running)
    (hjz : ¬(i = .jz ∧ s.current = 0)) (hjnz : ¬(i = .jnz ∧ s.current ≠ 0)) : t.ip = s.ip + 1 := by
  cases h with
  | leftFaults => simp at ht
  | jzTaken _ hv => exact absurd ⟨rfl, hv⟩ hjz
  | jnzTaken _ hv => exact absurd ⟨rfl, hv⟩ hjnz
  | _ => rfl

/-- An instruction of the program that does not end the run leaves `ip` in 1..PLEN. -/
theorem Effect.ip_bounds {i : Instr} {s t : State} (h : Effect i s t) (hip : s.ip < s.plen)
    (ht : t.status = .running) : 1 ≤ t.ip ∧ t.ip ≤ s.plen := by
  by_cases hjz : i = .jz ∧ s.current = 0
  · obtain ⟨rfl, hv⟩ := hjz
    obtain ⟨hgo, hfound, _⟩ := h.jz_goes_forward hv ht
    have hin : t.ip - 1 < s.plen := by simpa using (matchFwd_found _ _ _ hfound).2
    omega
  by_cases hjnz : i = .jnz ∧ s.current ≠ 0
  · obtain ⟨rfl, hv⟩ := hjnz
    obtain ⟨hgo, hpos, _⟩ := h.jnz_goes_back hip hv ht
    omega
  have hsucc := h.ip_eq_succ ht hjz hjnz
  omega

/-- Settles O32: the scans find their partners inside the program, on the side they search. -/
theorem controlTransfersStayInProgram : Obligations.ControlTransfersStayInProgram := by
  intro s t c hs hf hstep ht
  have hip : s.ip < s.plen := by
    by_contra hout
    simp [(fetch_eq_none_iff s).mpr (by omega)] at hf
  rw [step_of_fetch hs hf] at hstep
  have heff := Effect.of_exec hstep
  obtain ⟨hpos, hle⟩ := heff.ip_bounds hip ht
  refine ⟨hpos, hle, fun hjz hv => ?_, fun hjnz hv => ?_, heff.ip_eq_succ ht⟩
  · rw [hjz] at heff
    exact heff.jz_goes_forward hv ht
  · rw [hjnz] at heff
    obtain ⟨hback, _, hfound⟩ := heff.jnz_goes_back hip hv ht
    exact ⟨hback, hfound⟩

/-! ### Relations that every step and every run keep -/

/-- A relation that holds of a state and itself, of the halting step and of every instruction's effect
holds of every step. -/
theorem step_rel {R : State → State → Prop} (hrefl : ∀ s, R s s) (hhalt : ∀ s : State, R s s.halt)
    (heff : ∀ i s t, Effect i s t → R s t) {s t : State} (h : step s = .next t) : R s t := by
  rcases step_cases s t h with ⟨_, rfl⟩ | ⟨_, _, rfl⟩ | ⟨_, _, c, _, hexec⟩
  · exact hrefl t
  · exact hhalt s
  · exact heff _ s t (.of_exec hexec)

/-- A run of `n + 1` transitions that completes is a transition and a run of `n`. -/
theorem iterate_succ_cases {f : State → Host.Outcome State Fault Refusal} {n : Nat} {s t : State}
    (h : iterate f (n + 1) s = .next t) : ∃ u, f s = .next u ∧ iterate f n u = .next t := by
  cases hf : f s with
  | next u => exact ⟨u, rfl, iterate_succ f n s u hf ▸ h⟩
  | fault r => simp [iterate, hf] at h
  | refused r => simp [iterate, hf] at h

/-- A reflexive and transitive relation that holds of every transition holds of every run. -/
theorem iterate_rel {f : State → Host.Outcome State Fault Refusal} {R : State → State → Prop}
    (hrefl : ∀ s, R s s) (htrans : ∀ {s u t}, R s u → R u t → R s t)
    (hf : ∀ {s t}, f s = .next t → R s t) {n : Nat} {s t : State}
    (h : iterate f n s = .next t) : R s t := by
  induction n generalizing s with
  | zero =>
    obtain rfl : s = t := by simpa [iterate] using h
    exact hrefl s
  | succ n ih =>
    obtain ⟨u, hu, hrun⟩ := iterate_succ_cases h
    exact htrans (hf hu) (ih hrun)

/-- A transition that does not change a state never does. -/
theorem iterate_fixed {f : State → Host.Outcome State Fault Refusal} {s : State}
    (h : f s = .next s) (n : Nat) : iterate f n s = .next s := by
  induction n with
  | zero => rfl
  | succ n ih => rw [iterate_succ f n s s h, ih]

/-! ### The Tape invariant (10_state.md R24) -/

theorem Effect.cursor_lt {i : Instr} {s t : State} (h : Effect i s t)
    (hc : s.tape.cursor < s.tape.len) : t.tape.cursor < t.tape.len := by
  cases h with
  | rightInside hlt => exact hlt
  | rightGrows => simp [Tape.grow]; omega
  | leftMoves => simp; omega
  | jzTaken => simpa using hc
  | jnzTaken => simpa using hc
  | _ => exact hc

/-- Only `>` and `<` change the cursor (40_tape_ops.md R96). -/
theorem Effect.cursor_eq {i : Instr} {s t : State} (h : Effect i s t) (hr : i ≠ .right)
    (hl : i ≠ .left) : t.tape.cursor = s.tape.cursor := by
  cases h with
  | rightInside => exact absurd rfl hr
  | rightGrows => exact absurd rfl hr
  | leftMoves => exact absurd rfl hl
  | leftFaults => exact absurd rfl hl
  | _ => simp

theorem step_cursor_lt {s t : State} (h : step s = .next t) :
    s.tape.cursor < s.tape.len → t.tape.cursor < t.tape.len :=
  step_rel (R := fun s t => s.tape.cursor < s.tape.len → t.tape.cursor < t.tape.len)
    (fun _ hc => hc) (fun _ hc => hc) (fun _ _ _ heff hc => heff.cursor_lt hc) h

/-- Settles O39: a move right past the end doubles the tape, which is more than the one cell it needs. -/
theorem tapeCursorStaysOnACell : Obligations.TapeCursorStaysOnACell := by
  refine ⟨by decide, fun s hc => ⟨fun t h => step_cursor_lt h hc, step_ne_fault hc, ?_, ?_⟩⟩
  · exact ⟨s.current, by rw [Tape.sequence_getElem?, if_pos hc, State.current]⟩
  · intro i t h hmoved
    by_contra hother
    obtain ⟨hr, hl⟩ := not_or.mp hother
    exact hmoved ((Effect.of_exec h).cursor_eq hr hl)

/-! ### The arguments of a run (10_state.md R36) -/

theorem step_args_eq {s t : State} (h : step s = .next t) : t.args = s.args :=
  step_rel (R := fun s t => t.args = s.args) (fun _ => rfl) (fun _ => rfl)
    (fun _ _ _ heff => heff.args_eq) h

/-- A dispatching tick begins a scan at a taken bracket and else does what the instruction does
(43_control_flow.md R134). -/
theorem tickDispatch_next {i : Instr} {s t : State} (h : tickDispatch i s = .next t) :
    (i = .jz ∧ s.current = 0 ∧ t = s.beginScan .scanF) ∨
    (i = .jnz ∧ s.current ≠ 0 ∧ t = s.beginScan .scanB) ∨ Effect i s t := by
  cases i with
  | jz =>
    obtain ⟨hc, hk⟩ := State.invoke_getCell_next h
    by_cases hv : s.current = 0
    · obtain rfl : s.beginScan .scanF = t := by simpa [(isZero_iff _).mpr hv] using hk
      exact .inl ⟨rfl, hv, rfl⟩
    · obtain rfl : s.advance = t := by simpa [(isZero_false_iff _).mpr hv] using hk
      exact .inr (.inr (.jzFalls hc hv))
  | jnz =>
    obtain ⟨hc, hk⟩ := State.invoke_getCell_next h
    by_cases hv : s.current = 0
    · obtain rfl : s.advance = t := by simpa [(isZero_iff _).mpr hv] using hk
      exact .inr (.inr (.jnzFalls hc hv))
    · obtain rfl : s.beginScan .scanB = t := by simpa [(isZero_false_iff _).mpr hv] using hk
      exact .inr (.inl ⟨rfl, hv, rfl⟩)
  | _ => exact .inr (.inr (.of_exec h))

/-- Everything a tick that answers a next state can have done (43_control_flow.md R134 to R136). -/
theorem tick_cases {s t : State} (h : tick s = .next t) :
    (s.status ≠ .running ∧ t = s) ∨
    (s.status = .running ∧ s.phase = .fetch ∧ s.fetch = none ∧ t = s.halt) ∨
    (s.status = .running ∧ s.phase = .fetch ∧
      ∃ c, s.fetch = some c ∧ tickDispatch (decode s.args.charW c) s = .next t) ∨
    (s.status = .running ∧ s.phase = .scanF ∧ t = tickScanF s) ∨
    (s.status = .running ∧ s.phase = .scanB ∧ t = tickScanB s) := by
  cases hs : s.status with
  | halted => exact .inl ⟨by simp, by simpa [tick, hs, eq_comm] using h⟩
  | faulted k => exact .inl ⟨by simp, by simpa [tick, hs, eq_comm] using h⟩
  | running =>
    cases hp : s.phase with
    | scanF => simpa [tick, hs, hp, eq_comm] using h
    | scanB => simpa [tick, hs, hp, eq_comm] using h
    | fetch => cases hf : s.fetch <;> simpa [tick, tickFetch, hs, hp, hf, eq_comm] using h

@[simp] theorem State.beginScan_args (s : State) (p : Phase) : (s.beginScan p).args = s.args := rfl
@[simp] theorem State.failScan_args (s : State) : s.failScan.args = s.args := rfl
@[simp] theorem State.landScan_args (s : State) (j : Nat) : (s.landScan j).args = s.args := rfl

@[simp] theorem State.scanned_args (s : State) (p : Phase) (j d : Nat) :
    (s.scanned p j d).args = s.args := by
  unfold State.scanned
  split <;> simp

@[simp] theorem tickScanF_args (s : State) : (tickScanF s).args = s.args := by
  unfold tickScanF
  split <;> simp

@[simp] theorem tickScanB_args (s : State) : (tickScanB s).args = s.args := by
  unfold tickScanB
  split
  · simp
  · split <;> simp

theorem tick_args_eq {s t : State} (h : tick s = .next t) : t.args = s.args := by
  rcases tick_cases h with ⟨_, rfl⟩ | ⟨_, _, _, rfl⟩ | ⟨_, _, c, _, hd⟩ | ⟨_, _, rfl⟩ | ⟨_, _, rfl⟩
  · rfl
  · simp
  · rcases tickDispatch_next hd with ⟨_, _, rfl⟩ | ⟨_, _, rfl⟩ | heff
    · simp
    · simp
    · exact heff.args_eq
  · simp
  · simp

theorem iterate_args_eq {f : State → Host.Outcome State Fault Refusal}
    (hf : ∀ {s t}, f s = .next t → t.args = s.args) {n : Nat} {s t : State}
    (h : iterate f n s = .next t) : t.args = s.args :=
  iterate_rel (R := fun s t => t.args = s.args) (fun _ => rfl) (fun hsu hut => hut.trans hsu) hf h

/-- Settles O42: no step and no tick writes the arguments, and the program is read from them. -/
theorem runArgumentsNeverChange : Obligations.RunArgumentsNeverChange := by
  intro n s t h
  have hargs : t.args = s.args := h.elim (iterate_args_eq step_args_eq) (iterate_args_eq tick_args_eq)
  exact ⟨hargs, by rw [State.program, State.program, hargs]⟩

/-! ### The monotonic quantities (10_state.md R40) -/

/-- `t` may come after `s` in a run: the length and the input cursor are no smaller and the output is
longer at its end at most. -/
def MayFollow (s t : State) : Prop :=
  s.tape.len ≤ t.tape.len ∧ s.inputCursor ≤ t.inputCursor ∧ s.output <+: t.output

theorem MayFollow.refl (s : State) : MayFollow s s := ⟨le_rfl, le_rfl, List.prefix_rfl⟩

theorem MayFollow.trans {s u t : State} (hsu : MayFollow s u) (hut : MayFollow u t) : MayFollow s t := by
  obtain ⟨hlen, hinp, hout⟩ := hsu
  obtain ⟨hlen', hinp', hout'⟩ := hut
  exact ⟨hlen.trans hlen', hinp.trans hinp', hout.trans hout'⟩

theorem Effect.mayFollow {i : Instr} {s t : State} (h : Effect i s t) : MayFollow s t := by
  cases h with
  | rightGrows => exact ⟨by simp [Tape.grow]; omega, le_rfl, List.prefix_rfl⟩
  | out => exact ⟨le_rfl, le_rfl, List.prefix_append _ _⟩
  | inp => exact ⟨le_rfl, Nat.le_succ _, List.prefix_rfl⟩
  | jzTaken => simp [MayFollow]
  | jnzTaken => simp [MayFollow]
  | _ => exact .refl s

theorem step_mayFollow {s t : State} (h : step s = .next t) : MayFollow s t :=
  step_rel MayFollow.refl MayFollow.refl (fun _ _ _ heff => heff.mayFollow) h

/-- Settles O43, by the relation `MayFollow`, which every step keeps. -/
theorem monotonicQuantities : Obligations.MonotonicQuantities :=
  fun _ _ _ h => iterate_rel MayFollow.refl MayFollow.trans step_mayFollow h

/-! ### The streams count their instructions (10_state.md R28, R29) -/

/-- `,` alone moves the input cursor, by 1, and `.` alone makes the output longer, by 1. -/
theorem Effect.streams {i : Instr} {s t : State} (h : Effect i s t) :
    t.inputCursor = s.inputCursor + (if i = .inp then 1 else 0) ∧
    t.output.length = s.output.length + (if i = .out then 1 else 0) := by
  cases h <;> simp

theorem step_streams {s t : State} (h : step s = .next t) :
    t.inputCursor = s.inputCursor + countsInp s ∧
    t.output.length = s.output.length + countsOut s := by
  rcases step_cases s t h with ⟨hs, rfl⟩ | ⟨hs, hip, rfl⟩ | ⟨hs, _, c, hc, hexec⟩
  · cases hst : t.status with
    | running => exact absurd hst hs
    | halted => simp [countsInp, countsOut, hst]
    | faulted k => simp [countsInp, countsOut, hst]
  · simp [countsInp, countsOut, hs, (fetch_eq_none_iff s).mpr hip]
  · simpa [countsInp, countsOut, hs, hc] using (Effect.of_exec hexec).streams

/-- A quantity that every step raises by a count is raised by the tally of that count over a run. -/
theorem iterate_tally {q count : State → Nat}
    (hstep : ∀ {s t}, step s = .next t → q t = q s + count s) {n : Nat} {s t : State}
    (h : iterate step n s = .next t) : q t = q s + tally count n s := by
  induction n generalizing s with
  | zero =>
    obtain rfl : s = t := by simpa [iterate] using h
    rfl
  | succ n ih =>
    obtain ⟨u, hu, hrun⟩ := iterate_succ_cases h
    rw [ih hrun, hstep hu, tally, hu, Nat.add_assoc]

/-- Settles O44, by summing what one step adds to each stream. -/
theorem streamsCountTheirInstructions : Obligations.StreamsCountTheirInstructions :=
  fun _ _ _ h => ⟨iterate_tally (q := State.inputCursor) (fun hs => (step_streams hs).1) h,
    iterate_tally (q := fun s => s.output.length) (fun hs => (step_streams hs).2) h⟩

/-! ### The output is never read (10_state.md R29) -/

/-- The state with an earlier output before its own. -/
def State.prependOutput (s : State) (o : List Byte) : State := { s with output := o ++ s.output }

theorem State.prependOutput_emit (s : State) (o : List Byte) (v : Byte) :
    ((s.prependOutput o).emit v).advance = (s.emit v).advance.prependOutput o := by
  simp [State.prependOutput, State.emit, State.advance, State.goto]

theorem State.prependOutput_jump (s : State) (o : List Byte) (r : ScanResult) :
    (s.prependOutput o).jump r = (s.jump r).prependOutput o := by
  cases r <;> rfl

/-- Every instruction commutes with an earlier output. -/
theorem Effect.prependOutput {i : Instr} {s t : State} (h : Effect i s t) (o : List Byte) :
    Effect i (s.prependOutput o) (t.prependOutput o) := by
  cases h with
  | rightInside h => exact .rightInside h
  | rightGrows h hcap => exact .rightGrows h hcap
  | leftMoves h => exact .leftMoves h
  | leftFaults h => exact .leftFaults h
  | inc h => exact .inc h
  | dec h => exact .dec h
  | out h => rw [← State.prependOutput_emit]; exact .out h
  | inp h => exact .inp h
  | jzFalls h hv => exact .jzFalls h hv
  | jzTaken h hv => rw [← State.prependOutput_jump]; exact .jzTaken h hv
  | jnzFalls h hv => exact .jnzFalls h hv
  | jnzTaken h hv => rw [← State.prependOutput_jump]; exact .jnzTaken h hv
  | skip c => exact .skip c

theorem step_prependOutput {s t : State} (h : step s = .next t) (o : List Byte) :
    step (s.prependOutput o) = .next (t.prependOutput o) := by
  rcases step_cases s t h with ⟨hs, rfl⟩ | ⟨hs, hip, rfl⟩ | ⟨hs, _, c, hc, hexec⟩
  · exact step_of_not_running hs
  · exact step_of_fetch_none hs ((fetch_eq_none_iff s).mpr hip)
  · have heff := (Effect.of_exec hexec).prependOutput o
    exact (step_of_fetch (s := s.prependOutput o) hs hc).trans heff.exec_eq

/-- Settles O47: no test of any instruction depends on the output, and `.` appends at its other end. -/
theorem outputIsNeverRead : Obligations.OutputIsNeverRead :=
  fun _ _ o h => step_prependOutput h o

/-! ### The status (10_state.md R33, 60_exceptions.md R154, R160) -/

theorem tick_of_not_running {s : State} (hs : s.status ≠ .running) : tick s = .next s := by
  cases h : s.status with
  | running => exact absurd h hs
  | halted => simp [tick, h]
  | faulted k => simp [tick, h]

/-- Settles O36: a step and a tick check the status before anything else. -/
theorem terminalStatesAbsorb : Obligations.TerminalStatesAbsorb :=
  fun _ n hs => ⟨iterate_fixed (step_of_not_running hs) n, iterate_fixed (tick_of_not_running hs) n⟩

/-- The status that a code stands for, where there is one. -/
def Status.ofCode : Nat → Option Status
  | 0 => some .running
  | 1 => some (.faulted .negativeTapePointer)
  | 2 => some (.faulted .invalidByteValue)
  | 3 => some (.faulted .unmatchedBracket)
  | 4 => some .halted
  | _ => none

theorem Status.ofCode_code (x : Status) : Status.ofCode x.code = some x := by
  cases x with
  | running => rfl
  | halted => rfl
  | faulted k => cases k <;> rfl

/-- Settles O37: the table has one row for each status, so the codes can be read back. -/
theorem statusCodesAreTheTables : Obligations.StatusCodesAreTheTables := by
  refine ⟨rfl, rfl, rfl, rfl, rfl, fun x y hxy => Option.some_injective _ ?_⟩
  rw [← x.ofCode_code, ← y.ofCode_code, hxy]

end Sys2Proof.Machine

namespace Sys2Proof.Machine

/-! ### Growth and its schedule (20_memory.md R58, R59) -/

/-- An instruction other than a `>` at the right end leaves the length as it was. -/
theorem Effect.len_eq {i : Instr} {s t : State} (h : Effect i s t)
    (hn : ¬(i = .right ∧ s.tape.len ≤ s.tape.cursor + 1)) : t.tape.len = s.tape.len := by
  cases h with
  | rightGrows hle => exact absurd ⟨rfl, hle⟩ hn
  | _ => simp

theorem Effect.tape_eq_of_right_grows {s t : State} (h : Effect .right s t)
    (hle : s.tape.len ≤ s.tape.cursor + 1) :
    t.tape = { s.tape.grow with cursor := s.tape.cursor + 1 } := by
  cases h with
  | rightInside hlt => omega
  | rightGrows => rfl

@[simp] theorem Tape.grow_len (t : Tape) : t.grow.len = 2 * t.len := rfl

/-- The schedule's length does not change where the cursor stays within it. -/
theorem scheduledLen_max_of_lt {m c : Nat} (h : c < scheduledLen m) :
    scheduledLen (max m c) = scheduledLen m :=
  scheduledLen_of_lt m _ (le_max_left m c) (max_lt (lt_scheduledLen m) h)

/-- The schedule doubles where the next cursor would leave the tape. -/
theorem scheduledLen_succ_of_le {m : Nat} (h : scheduledLen m ≤ m + 1) :
    scheduledLen (m + 1) = 2 * scheduledLen m := by
  have hlen : m + 1 = scheduledLen m := le_antisymm (lt_scheduledLen m) h
  rw [hlen, scheduledLen_scheduledLen]

/-- `s` to `t` keeps the schedule: a length fixed by a largest cursor `m` so far stays fixed by the
largest cursor so far. -/
def KeepsSchedule (s t : State) : Prop :=
  ∀ m, s.tape.cursor ≤ m → s.tape.len = scheduledLen m →
    t.tape.len = scheduledLen (max m t.tape.cursor)

theorem KeepsSchedule.of_tape_eq {s t : State} (h : t.tape = s.tape) : KeepsSchedule s t := by
  intro m hm hlen
  rw [h, max_eq_left hm, hlen]

/-- Where `>` grows a tape on schedule, its cursor is the largest so far, so the schedule doubles too. -/
theorem Effect.keepsSchedule {i : Instr} {s t : State} (h : Effect i s t) : KeepsSchedule s t := by
  intro m hm hlen
  have hmlt : m < s.tape.len := hlen ▸ lt_scheduledLen m
  by_cases hg : i = .right ∧ s.tape.len ≤ s.tape.cursor + 1
  · obtain ⟨rfl, hle⟩ := hg
    obtain rfl : m = s.tape.cursor := by omega
    have htape := h.tape_eq_of_right_grows hle
    rw [hlen] at hle
    simp [htape, scheduledLen_succ_of_le hle, hlen]
  · have hsame : t.tape.len = scheduledLen m := (h.len_eq hg).trans hlen
    have hcur : t.tape.cursor < scheduledLen m := hsame ▸ h.cursor_lt (hm.trans_lt hmlt)
    rw [hsame, scheduledLen_max_of_lt hcur]

theorem step_keepsSchedule {s t : State} (h : step s = .next t) : KeepsSchedule s t :=
  step_rel (fun _ => .of_tape_eq rfl) (fun _ => .of_tape_eq rfl) (fun _ _ _ heff => heff.keepsSchedule) h

/-- Settles O52, by the relation `KeepsSchedule`, which every effect has. -/
theorem stepKeepsGrowthSchedule : Obligations.StepKeepsGrowthSchedule :=
  fun m _ _ hm hlen h => step_keepsSchedule h m hm hlen

theorem le_peakCursor (n : Nat) (s : State) : s.tape.cursor ≤ peakCursor n s := by
  cases n with
  | zero => exact le_rfl
  | succ n => cases h : step s <;> simp [peakCursor, h]

/-- The schedule over a run that starts on schedule for a largest cursor `m` so far. -/
theorem iterate_step_len {n m : Nat} {s t : State} (hm : s.tape.cursor ≤ m)
    (hlen : s.tape.len = scheduledLen m) (h : iterate step n s = .next t) :
    t.tape.len = scheduledLen (max m (peakCursor n s)) := by
  induction n generalizing s m with
  | zero =>
    obtain rfl : s = t := by simpa [iterate] using h
    rw [peakCursor, max_eq_left hm, hlen]
  | succ n ih =>
    obtain ⟨u, hu, hrun⟩ := iterate_succ_cases h
    have hpeak : peakCursor (n + 1) s = max s.tape.cursor (peakCursor n u) := by rw [peakCursor, hu]
    rw [ih (le_max_right m _) (step_keepsSchedule hu m hm hlen) hrun, hpeak, max_assoc,
      max_eq_right (le_peakCursor n u), ← max_assoc, max_eq_left hm]

/-- Settles O45: a run starts with the cursor at 0 on four cells, the schedule's length for 0. -/
theorem runFollowsGrowthSchedule : Obligations.RunFollowsGrowthSchedule := by
  intro a n t h
  rw [iterate_step_len (m := 0) le_rfl rfl h, Nat.zero_max]

/-! ### The Tape alone grows on schedule -/

/-- A Tape of zero cells at cursor `c`, of the schedule's length. -/
def Tape.blank (c : Nat) : Tape := { cells := [], len := scheduledLen c, cursor := c }

theorem Tape.blank_zero : Tape.blank 0 = Tape.fresh := rfl

theorem Tape.sequence_blank (c : Nat) :
    (Tape.blank c).sequence = List.replicate (scheduledLen c) 0 := by
  have hread : Memory.read [] = fun _ => 0 := rfl
  simp [Tape.sequence, Tape.blank, hread]

theorem Tape.incrementPointer_blank (c : Nat) :
    (Tape.blank c).incrementPointer none = .done (Tape.blank (c + 1)) := by
  by_cases h : c + 1 < scheduledLen c
  · rw [Tape.incrementPointer_of_lt _ _ h]
    simp [Tape.blank, scheduledLen_of_lt c (c + 1) (Nat.le_succ c) h]
  · have hle : scheduledLen c ≤ c + 1 := by omega
    rw [Tape.incrementPointer_of_le _ _ hle rfl]
    simp [Tape.blank, Tape.grow, Memory.below, scheduledLen_succ_of_le hle]

theorem Tape.performMany_incrementPointer_blank (n c : Nat) :
    (Tape.blank c).performMany none .incrementPointer n = some (Tape.blank (c + n)) := by
  induction n generalizing c with
  | zero => rfl
  | succ n ih =>
    rw [Tape.performMany, Tape.perform, Tape.incrementPointer_blank]
    simp only [TapeOutcome.silent]
    rw [ih, Nat.add_right_comm, Nat.add_assoc]

/-- Settles O14: moving right takes the blank Tape at `c` to the blank Tape at `c + 1`. -/
theorem freshTapeGrowthSchedule : Obligations.FreshTapeGrowthSchedule := by
  intro n
  refine ⟨Tape.blank n, ?_, rfl, rfl, Tape.sequence_blank n⟩
  rw [← Tape.blank_zero, Tape.performMany_incrementPointer_blank, Nat.zero_add]

/-! ### `Grow` (20_memory.md R58) -/

/-- `Grow` adds as many cells as there were, all 0, and leaves every cell there was. -/
theorem Tape.sequence_grow (t : Tape) : t.grow.sequence = t.sequence ++ List.replicate t.len 0 := by
  refine List.ext_getElem? fun a => ?_
  rw [Tape.sequence_getElem?, List.getElem?_append, Tape.sequence_length, Tape.sequence_getElem?,
    List.getElem?_replicate, Tape.grow, Memory.read_below]
  by_cases ha : a < t.len
  · have h2 : a < 2 * t.len := by omega
    simp [ha, h2]
  · have h2 : a < 2 * t.len ↔ a - t.len < t.len := by omega
    simp [ha, h2, Memory.unlisted]

/-- Settles O7: `Grow` leaves the cells below the old length as they were and adds zeros, and a cursor on a
cell that needs a longer tape is on its last. -/
theorem growDoublesAndOnlyRightGrows : Obligations.GrowDoublesAndOnlyRightGrows := by
  refine ⟨fun t => ⟨t.grow_len, t.sequence_grow⟩, fun i s t hc h => ⟨?_, fun hn => ?_⟩⟩
  · rintro ⟨rfl, hend⟩
    have heff := Effect.of_exec h
    exact ⟨heff.tape_eq_of_right_grows hend.ge, heff.cursor_lt hc⟩
  · exact (Effect.of_exec h).len_eq fun ⟨hi, hle⟩ => hn ⟨hi, le_antisymm hc hle⟩

/-! ### Where a growth is refused (20_memory.md R64) -/

theorem fitsCap_eq_false_iff (cap : Option Nat) (n : Nat) :
    fitsCap cap n = false ↔ ∃ c, cap = some c ∧ c < n := by
  cases cap <;> simp [fitsCap]

theorem Tape.incrementPointer_eq_overCap_iff (cap : Option Nat) (t : Tape) :
    t.incrementPointer cap = .overCap ↔ t.len ≤ t.cursor + 1 ∧ fitsCap cap (2 * t.len) = false := by
  rcases t.incrementPointer_eq cap with ⟨h, heq⟩ | ⟨h, hcap, heq⟩ | ⟨h, hcap, heq⟩
  · simp [heq, h]
  · simp [heq, hcap]
  · simp [heq, h, hcap]

theorem Tape.decrementPointer_ne_overCap (t : Tape) : t.decrementPointer ≠ .overCap := by
  rcases t.decrementPointer_eq with ⟨_, heq⟩ | ⟨_, heq⟩ <;> simp [heq]

theorem Tape.getCell_ne_overCap (t : Tape) : t.getCell ≠ .overCap := by
  rcases t.getCell_eq with ⟨_, heq⟩ | ⟨_, heq⟩ <;> simp [heq]

theorem Tape.modifyCell_ne_overCap (t : Tape) (f : Byte → Byte) : t.modifyCell f ≠ .overCap := by
  rcases t.modifyCell_eq f with ⟨_, heq⟩ | ⟨_, heq⟩ <;> simp [heq]

theorem Tape.setCell_ne_overCap (t : Tape) (v : Int) : t.setCell v ≠ .overCap := by
  rcases t.setCell_eq v with ⟨_, _, heq⟩ | ⟨_, _, heq⟩ | ⟨_, heq⟩ <;> simp [heq]

/-- An invocation whose continuation always goes on is refused where the operation needs a growth beyond
the cap, and nowhere else. -/
theorem State.invoke_next_refused_iff {α : Type} (s : State) (r : TapeOutcome α) (k : α → State)
    (x : Refusal) :
    s.invoke r (fun a => .next (k a)) = .refused x ↔ r = .overCap ∧ x = .tapeCapExceeded := by
  cases r <;> simp [eq_comm]

/-- Settles O16: every instruction but the inert character is one invocation of the Tape, and of the
operations invoked `increment_pointer` alone can answer that the cap is exceeded. -/
theorem onlyGrowthBeyondCapIsRefused : Obligations.OnlyGrowthBeyondCapIsRefused := by
  intro i s r
  cases i with
  | right =>
    rw [exec, execRight, State.invoke_next_refused_iff, Tape.incrementPointer_eq_overCap_iff,
      fitsCap_eq_false_iff]
    tauto
  | left => simp [exec, execLeft, State.invoke_next_refused_iff, Tape.decrementPointer_ne_overCap]
  | inc =>
    simp [exec, execInc, Tape.incrementCell, State.invoke_next_refused_iff, Tape.modifyCell_ne_overCap]
  | dec =>
    simp [exec, execDec, Tape.decrementCell, State.invoke_next_refused_iff, Tape.modifyCell_ne_overCap]
  | out => simp [exec, execOut, State.invoke_next_refused_iff, Tape.getCell_ne_overCap]
  | inp => simp [exec, execInp, State.invoke_next_refused_iff, Tape.setCell_ne_overCap]
  | jz => simp [exec, execJz, State.invoke_next_refused_iff, Tape.getCell_ne_overCap]
  | jnz => simp [exec, execJnz, State.invoke_next_refused_iff, Tape.getCell_ne_overCap]
  | skip c => simp [exec, execSkip]

end Sys2Proof.Machine

namespace Sys2Proof.Machine

/-! ### Storing to the current cell (20_memory.md R67) -/

/-- A write as a function of the address. -/
theorem Memory.read_write (m : List Host.Cell) (a : Nat) (v : Byte) :
    Memory.read (Memory.write m a v) = Function.update (Memory.read m) a v := by
  funext b
  by_cases h : b = a
  · rw [h, Memory.read_write_same, Function.update_self]
  · rw [Memory.read_write_other m a b v h, Function.update_of_ne h]

/-- A write leaves nothing of an earlier one to the same place. -/
theorem Memory.write_write (m : List Host.Cell) (a : Nat) (v w : Byte) :
    Memory.write (Memory.write m a v) a w = Memory.write m a w := by
  have hentry : ∀ x ∈ Memory.entry a v, x.1 = a := by
    unfold Memory.entry
    split <;> simp
  have hlow : (Memory.entry a v).filter (fun x => decide (x.1 < a)) = [] :=
    List.filter_eq_nil_iff.mpr fun x hx => by simp [hentry x hx]
  have hhigh : (Memory.entry a v).filter (fun x => decide (a < x.1)) = [] :=
    List.filter_eq_nil_iff.mpr fun x hx => by simp [hentry x hx]
  have hasymm : ∀ x : Host.Cell, ¬(x.1 < a ∧ a < x.1) := fun x h => by omega
  have hasymm' : ∀ x : Host.Cell, ¬(a < x.1 ∧ x.1 < a) := fun x h => hasymm x h.symm
  simp only [Memory.write, List.filter_append, hlow, hhigh, List.filter_filter]
  simp [← Bool.decide_and, hasymm, hasymm']

/-- The byte at the cursor. -/
def Tape.current (t : Tape) : Byte := Memory.read t.cells t.cursor

/-- The Tape with another byte at the cursor. -/
def Tape.store (t : Tape) (v : Byte) : Tape :=
  { t with cells := Memory.write t.cells t.cursor v }

@[simp] theorem Tape.store_len (t : Tape) (v : Byte) : (t.store v).len = t.len := rfl
@[simp] theorem Tape.store_cursor (t : Tape) (v : Byte) : (t.store v).cursor = t.cursor := rfl

theorem Tape.read_store_self (t : Tape) (v : Byte) : Memory.read (t.store v).cells t.cursor = v :=
  Memory.read_write_same _ _ _

@[simp] theorem Tape.store_current (t : Tape) (v : Byte) : (t.store v).current = v :=
  t.read_store_self v

theorem Tape.read_store_of_ne (t : Tape) (v : Byte) {a : Nat} (h : a ≠ t.cursor) :
    Memory.read (t.store v).cells a = Memory.read t.cells a :=
  Memory.read_write_other _ _ _ _ h

@[simp] theorem Tape.store_store (t : Tape) (v w : Byte) : (t.store v).store w = t.store w := by
  simp [Tape.store, Memory.write_write]

/-- Storing what is there already changes no cell. -/
theorem Tape.sequence_store_current (t : Tape) : (t.store t.current).sequence = t.sequence := by
  rw [Tape.sequence, Tape.store, Memory.read_write, Tape.current, Function.update_eq_self, Tape.sequence]

theorem Tape.modifyCell_eq_store (t : Tape) (f : Byte → Byte) (h : t.cursor < t.len) :
    t.modifyCell f = .done (t.store (f t.current)) :=
  t.modifyCell_of_lt f h

theorem Tape.getCell_of_lt (t : Tape) (h : t.cursor < t.len) : t.getCell = .done t.current :=
  if_pos h

/-! ### `increment_cell` and `decrement_cell` (40_tape_ops.md R92, R93) -/

theorem byteInc_toInt (v : Byte) : ((byteInc v).toNat : Int) = ((v.toNat : Int) + 1) % 256 := by
  rw [byteInc_toNat]
  omega

theorem byteDec_toInt (v : Byte) : ((byteDec v).toNat : Int) = ((v.toNat : Int) - 1) % 256 := by
  rw [byteDec_toNat]
  omega

theorem byteDec_leftInverse : Function.LeftInverse byteDec byteInc := fun v => by
  simp [byteDec, byteInc]

theorem byteDec_rightInverse : Function.RightInverse byteDec byteInc := fun v => by
  simp [byteDec, byteInc]

/-- A change of the current cell, undone by the change that inverts it. -/
theorem Tape.modifyCell_modifyCell (t : Tape) (f g : Byte → Byte) (hgf : Function.LeftInverse g f)
    (h : t.cursor < t.len) :
    ∃ w, (t.store (f t.current)).modifyCell g = .done w ∧ w.sequence = t.sequence := by
  refine ⟨_, Tape.modifyCell_eq_store _ g h, ?_⟩
  rw [Tape.store_current, hgf, Tape.store_store, Tape.sequence_store_current]

/-- Settles O9: both store a byte at the cursor, and `byteInc` and `byteDec` are inverse to each other. -/
theorem cellArithmeticWraps : Obligations.CellArithmeticWraps := by
  intro t hc
  constructor
  · refine ⟨_, t.modifyCell_eq_store byteInc hc, rfl, rfl, ?_, fun a ha => t.read_store_of_ne _ ha,
      t.modifyCell_modifyCell byteInc byteDec byteDec_leftInverse hc⟩
    rw [Tape.read_store_self]
    exact byteInc_toInt _
  · refine ⟨_, t.modifyCell_eq_store byteDec hc, rfl, rfl, ?_, fun a ha => t.read_store_of_ne _ ha,
      t.modifyCell_modifyCell byteDec byteInc byteDec_rightInverse hc⟩
    rw [Tape.read_store_self]
    exact byteDec_toInt _

/-- Repeating one change of the current cell iterates it on the byte. -/
theorem Tape.performMany_modifyCell (cap : Option Nat) (op : TapeOp) (f : Byte → Byte)
    (hop : ∀ t : Tape, t.perform cap op = (t.modifyCell f).silent) (n : Nat) (t : Tape)
    (h : t.cursor < t.len) :
    t.performMany cap op (n + 1) = some (t.store (f^[n + 1] t.current)) := by
  induction n generalizing t with
  | zero => simp [Tape.performMany, hop, t.modifyCell_eq_store f h, TapeOutcome.silent]
  | succ n ih =>
    have hnext := ih (t.store (f t.current)) h
    rw [Tape.performMany, hop, t.modifyCell_eq_store f h]
    simpa [TapeOutcome.silent] using hnext

theorem byteInc_iterate_256 : byteInc^[256] = id := by
  funext v
  have hinc : byteInc = (· + 1) := rfl
  have hwrap : (256 : Nat) • (1 : Byte) = 0 := by decide
  rw [hinc, add_right_iterate_apply, hwrap, add_zero, id]

theorem byteDec_iterate_256 : byteDec^[256] = id := by
  have hinv := byteDec_leftInverse.iterate 256
  rw [byteInc_iterate_256] at hinv
  exact funext hinv

/-- A full turn of the current cell changes no cell. -/
theorem Tape.performMany_fullTurn (cap : Option Nat) (op : TapeOp) (f : Byte → Byte)
    (hop : ∀ t : Tape, t.perform cap op = (t.modifyCell f).silent) (hf : f^[256] = id) (t : Tape)
    (h : t.cursor < t.len) :
    ∃ u, t.performMany cap op 256 = some u ∧ u.sequence = t.sequence ∧ u.cursor = t.cursor := by
  refine ⟨_, t.performMany_modifyCell cap op f hop 255 h, ?_, rfl⟩
  rw [hf, id, Tape.sequence_store_current]

theorem Tape.cursor_of_incrementPointer {cap : Option Nat} {t u : Tape}
    (h : t.incrementPointer cap = .done u) : u.cursor = t.cursor + 1 := by
  rcases t.incrementPointer_eq cap with ⟨_, heq⟩ | ⟨_, _, heq⟩ | ⟨_, _, heq⟩
  · cases heq.symm.trans h; rfl
  · cases heq.symm.trans h; rfl
  · cases heq.symm.trans h

theorem Tape.cursor_of_decrementPointer {t u : Tape} (h : t.decrementPointer = .done u) :
    u.cursor = t.cursor - 1 := by
  rcases t.decrementPointer_eq with ⟨_, heq⟩ | ⟨_, heq⟩
  · cases heq.symm.trans h
  · cases heq.symm.trans h; rfl

/-- Settles O13: 256 times `byteInc` is the identity, and so is 256 times its inverse. -/
theorem fullTurnRestoresCell : Obligations.FullTurnRestoresCell := by
  refine fun t hc => ⟨?_, fun u w hu hw => ?_⟩
  · rintro op (rfl | rfl)
    · exact t.performMany_fullTurn none _ byteInc (fun _ => rfl) byteInc_iterate_256 hc
    · exact t.performMany_fullTurn none _ byteDec (fun _ => rfl) byteDec_iterate_256 hc
  · rw [Tape.cursor_of_decrementPointer hw, Tape.cursor_of_incrementPointer hu, Nat.add_sub_cancel]

/-! ### `increment_pointer` and `decrement_pointer` (40_tape_ops.md R90, R91) -/

/-- Settles O6: a move right inside the tape changes the cursor alone, and at its end it grows the tape,
which adds the zero cells (`Tape.sequence_grow`). -/
theorem incrementPointerDoublesWhenOutOfBounds :
    Obligations.IncrementPointerDoublesWhenOutOfBounds := by
  intro cap t hc hcap
  by_cases h : t.cursor + 1 < t.len
  · exact ⟨_, t.incrementPointer_of_lt cap h, rfl, fun _ => ⟨rfl, rfl⟩, fun hle => by omega⟩
  · have hend : t.cursor + 1 = t.len := by omega
    exact ⟨_, t.incrementPointer_of_le cap hend.ge (hcap hend), rfl, fun hlt => absurd hlt h,
      fun _ => ⟨hend, rfl, t.sequence_grow⟩⟩

/-- Settles O8: `<` at cursor 0 has no effect but fault entry. -/
theorem decrementPointerStopsAtOrigin : Obligations.DecrementPointerStopsAtOrigin :=
  ⟨fun t => ⟨t.decrementPointer_of_zero, t.decrementPointer_of_ne_zero⟩,
    fun _ h => ⟨_, (Effect.leftFaults h).exec_eq, rfl, rfl⟩⟩

/-! ### `set_cell` and `get_cell` (40_tape_ops.md R94, R95) -/

theorem inByteRange_iff (v : Int) : inByteRange v = true ↔ 0 ≤ v ∧ v ≤ 255 := by
  simp [inByteRange]

theorem inByteRange_false_iff (v : Int) : inByteRange v = false ↔ v < 0 ∨ 255 < v := by
  rw [← Bool.not_eq_true, inByteRange_iff]
  omega

theorem Tape.setCell_eq_raises_iff (t : Tape) (v : Int) (k : FaultKind) :
    t.setCell v = .raises k ↔ (v < 0 ∨ 255 < v) ∧ k = .invalidByteValue := by
  rw [← inByteRange_false_iff]
  rcases t.setCell_eq v with ⟨hv, _, heq⟩ | ⟨hv, _, heq⟩ | ⟨hv, heq⟩ <;> simp [heq, hv, eq_comm]

theorem Tape.setCell_of_lt (t : Tape) (v : Int) (h : t.cursor < t.len) (h0 : 0 ≤ v) (h255 : v ≤ 255) :
    t.setCell v = .done (t.store (BitVec.ofInt 8 v)) := by
  have hv := (inByteRange_iff v).mpr ⟨h0, h255⟩
  rcases t.setCell_eq v with ⟨_, _, heq⟩ | ⟨_, hle, _⟩ | ⟨hno, _⟩
  · exact heq
  · omega
  · simp [hv] at hno

theorem ofInt_toNat_of_range {v : Int} (h0 : 0 ≤ v) (h255 : v ≤ 255) :
    ((BitVec.ofInt 8 v).toNat : Int) = v := by
  rw [BitVec.toNat_ofInt]
  omega

/-- Settles O10: the range check decides before the write, and a byte in range is stored as it is. -/
theorem setCellChecksBeforeWriting : Obligations.SetCellChecksBeforeWriting := by
  refine fun t v => ⟨by simp [Tape.setCell_eq_raises_iff], fun hc h0 h255 => ?_⟩
  refine ⟨_, t.setCell_of_lt v hc h0 h255, rfl, rfl, ?_, fun a ha => t.read_store_of_ne _ ha⟩
  rw [Tape.read_store_self, ofInt_toNat_of_range h0 h255]

theorem Tape.perform_getCell_of_lt (cap : Option Nat) (t : Tape) (h : t.cursor < t.len) :
    t.perform cap .getCell = .done (t, some t.current) := by
  rw [Tape.perform, t.getCell_of_lt h]

/-- Settles O11: where the cursor is on a cell, the answer is that cell and the Tape is the same. -/
theorem getCellReturnsCurrentCell : Obligations.GetCellReturnsCurrentCell := by
  refine ⟨fun cap t hc => ?_, by decide⟩
  refine ⟨t.current, t.getCell_of_lt hc, ?_, Nat.le_of_lt_succ t.current.isLt,
    t.perform_getCell_of_lt cap hc⟩
  rw [Tape.sequence_getElem?, if_pos hc, Tape.current]

/-! ### The six operations together (40_tape_ops.md R96) -/

theorem TapeOutcome.done_of_silent {r : TapeOutcome Tape} {u : Tape} {v : Option Byte}
    (h : r.silent = .done (u, v)) : r = .done u := by
  cases r <;> simp_all [TapeOutcome.silent]

@[simp] theorem TapeOutcome.silent_eq_raises_iff (r : TapeOutcome Tape) (k : FaultKind) :
    r.silent = .raises k ↔ r = .raises k := by
  cases r <;> simp [TapeOutcome.silent]

@[simp] theorem TapeOutcome.silent_eq_noCell_iff (r : TapeOutcome Tape) :
    r.silent = .noCell ↔ r = .noCell := by
  cases r <;> simp [TapeOutcome.silent]

/-- `TapeEffect op t u`: operation `op` completes and takes `t` to `u`, one constructor for each way an
operation can complete. The byte stored is left open: 40_tape_ops.md R96 does not speak of it.
`Tape.effect_of_perform` ties it to `Tape.perform`. -/
inductive TapeEffect : TapeOp → Tape → Tape → Prop where
  | advances {t : Tape} (h : t.cursor + 1 < t.len) :
      TapeEffect .incrementPointer t { t with cursor := t.cursor + 1 }
  | grows {t : Tape} (h : t.len ≤ t.cursor + 1) :
      TapeEffect .incrementPointer t { t.grow with cursor := t.cursor + 1 }
  | retreats {t : Tape} (h : t.cursor ≠ 0) :
      TapeEffect .decrementPointer t { t with cursor := t.cursor - 1 }
  | stores {op : TapeOp} {t : Tape} (v : Byte)
      (hop : op = .incrementCell ∨ op = .decrementCell ∨ ∃ x, op = .setCell x) :
      TapeEffect op t (t.store v)
  | reads {t : Tape} : TapeEffect .getCell t t

theorem Tape.store_of_modifyCell {t u : Tape} {f : Byte → Byte} (h : t.modifyCell f = .done u) :
    u = t.store (f t.current) := by
  rcases t.modifyCell_eq f with ⟨_, heq⟩ | ⟨_, heq⟩ <;> cases heq.symm.trans h
  rfl

theorem Tape.store_of_setCell {t u : Tape} {v : Int} (h : t.setCell v = .done u) :
    u = t.store (BitVec.ofInt 8 v) := by
  rcases t.setCell_eq v with ⟨_, _, heq⟩ | ⟨_, _, heq⟩ | ⟨_, heq⟩ <;> cases heq.symm.trans h
  rfl

theorem Tape.effect_of_perform {cap : Option Nat} {op : TapeOp} {t u : Tape} {v : Option Byte}
    (h : t.perform cap op = .done (u, v)) : TapeEffect op t u := by
  cases op with
  | incrementPointer =>
    rcases t.incrementPointer_eq cap with ⟨hlt, heq⟩ | ⟨hle, _, heq⟩ | ⟨_, _, heq⟩ <;>
      cases heq.symm.trans (TapeOutcome.done_of_silent h)
    · exact .advances hlt
    · exact .grows hle
  | decrementPointer =>
    rcases t.decrementPointer_eq with ⟨_, heq⟩ | ⟨hne, heq⟩ <;>
      cases heq.symm.trans (TapeOutcome.done_of_silent h)
    exact .retreats hne
  | incrementCell =>
    exact Tape.store_of_modifyCell (TapeOutcome.done_of_silent h) ▸ .stores _ (.inl rfl)
  | decrementCell =>
    exact Tape.store_of_modifyCell (TapeOutcome.done_of_silent h) ▸ .stores _ (.inr (.inl rfl))
  | setCell x =>
    exact Tape.store_of_setCell (TapeOutcome.done_of_silent h) ▸ .stores _ (.inr (.inr ⟨x, rfl⟩))
  | getCell =>
    rcases t.getCell_eq with ⟨_, heq⟩ | ⟨_, heq⟩ <;> simp [Tape.perform, heq] at h
    exact h.1 ▸ .reads

theorem TapeEffect.legal {op : TapeOp} {t u : Tape} (h : TapeEffect op t u) (ht : t.Legal) :
    u.Legal := by
  have hc := ht.cursor_lt
  cases h with
  | advances hlt => exact ht.withCursor hlt
  | grows => exact ht.grown (by have := ht.four_le_len; omega)
  | retreats => exact ht.withCursor (by omega)
  | stores v => exact ht.stored v
  | reads => exact ht

theorem TapeEffect.eq_of_len_ne {op : TapeOp} {t u : Tape} (h : TapeEffect op t u)
    (hne : u.len ≠ t.len) : op = .incrementPointer := by
  cases h with
  | grows => rfl
  | _ => exact absurd rfl hne

theorem TapeEffect.eq_of_cursor_ne {op : TapeOp} {t u : Tape} (h : TapeEffect op t u)
    (hne : u.cursor ≠ t.cursor) : op = .incrementPointer ∨ op = .decrementPointer := by
  cases h with
  | advances => exact .inl rfl
  | grows => exact .inl rfl
  | retreats => exact .inr rfl
  | stores => exact absurd rfl hne
  | reads => exact absurd rfl hne

/-- On a legal Tape, which lists no cell beyond its length, growing changes no read. -/
theorem TapeEffect.eq_of_read_ne {op : TapeOp} {t u : Tape} (h : TapeEffect op t u) (ht : t.Legal)
    {a : Nat} (hne : Memory.read u.cells a ≠ Memory.read t.cells a) :
    a = t.cursor ∧ (op = .incrementCell ∨ op = .decrementCell ∨ ∃ x, op = .setCell x) := by
  cases h with
  | grows => exact absurd (by rw [ht.grow_eq]) hne
  | stores v hop => exact ⟨not_ne_iff.mp fun ha => hne (t.read_store_of_ne v ha), hop⟩
  | _ => exact absurd rfl hne

theorem Tape.decrementPointer_eq_raises_iff (t : Tape) (k : FaultKind) :
    t.decrementPointer = .raises k ↔ t.cursor = 0 ∧ k = .negativeTapePointer := by
  rcases t.decrementPointer_eq with ⟨h, heq⟩ | ⟨h, heq⟩ <;> simp [heq, h, eq_comm]

theorem Tape.incrementPointer_ne_raises (cap : Option Nat) (t : Tape) (k : FaultKind) :
    t.incrementPointer cap ≠ .raises k := by
  rcases t.incrementPointer_eq cap with ⟨_, heq⟩ | ⟨_, _, heq⟩ | ⟨_, _, heq⟩ <;> simp [heq]

theorem Tape.modifyCell_ne_raises (t : Tape) (f : Byte → Byte) (k : FaultKind) :
    t.modifyCell f ≠ .raises k := by
  rcases t.modifyCell_eq f with ⟨_, heq⟩ | ⟨_, heq⟩ <;> simp [heq]

/-- The operations that fail, where the cursor is on a cell. -/
theorem Tape.perform_eq_raises_iff (cap : Option Nat) (op : TapeOp) (t : Tape) (k : FaultKind)
    (h : t.cursor < t.len) :
    t.perform cap op = .raises k ↔
      (op = .decrementPointer ∧ t.cursor = 0 ∧ k = .negativeTapePointer) ∨
      (∃ x, op = .setCell x ∧ (x < 0 ∨ 255 < x) ∧ k = .invalidByteValue) := by
  cases op with
  | incrementPointer => simp [Tape.perform, Tape.incrementPointer_ne_raises]
  | decrementPointer => simp [Tape.perform, Tape.decrementPointer_eq_raises_iff]
  | incrementCell => simp [Tape.perform, Tape.incrementCell, Tape.modifyCell_ne_raises]
  | decrementCell => simp [Tape.perform, Tape.decrementCell, Tape.modifyCell_ne_raises]
  | setCell x => simp [Tape.perform, Tape.setCell_eq_raises_iff]
  | getCell => simp [Tape.perform_getCell_of_lt cap t h]

theorem Tape.setCell_ne_noCell_of_lt (t : Tape) (v : Int) (h : t.cursor < t.len) :
    t.setCell v ≠ .noCell := by
  rcases t.setCell_eq v with ⟨_, _, heq⟩ | ⟨_, hle, _⟩ | ⟨_, heq⟩
  · simp [heq]
  · omega
  · simp [heq]

theorem Tape.perform_ne_noCell_of_lt (cap : Option Nat) (op : TapeOp) (t : Tape)
    (h : t.cursor < t.len) : t.perform cap op ≠ .noCell := by
  cases op with
  | incrementPointer => simp [Tape.perform, Tape.incrementPointer_ne_noCell]
  | decrementPointer => simp [Tape.perform, Tape.decrementPointer_ne_noCell]
  | incrementCell => simp [Tape.perform, Tape.incrementCell, Tape.modifyCell_eq_noCell_iff, h]
  | decrementCell => simp [Tape.perform, Tape.decrementCell, Tape.modifyCell_eq_noCell_iff, h]
  | setCell x => simp [Tape.perform, Tape.setCell_ne_noCell_of_lt t x h]
  | getCell => simp [Tape.perform_getCell_of_lt cap t h]

/-- Settles O12, by the effects a completed operation can have, and by what a failed one answers. -/
theorem tapeOperationsKeepTapeLegal : Obligations.TapeOperationsKeepTapeLegal := by
  refine fun cap op t ht => ⟨fun u v h => ?_, fun k => t.perform_eq_raises_iff cap op k ht.cursor_lt,
    t.perform_ne_noCell_of_lt cap op ht.cursor_lt⟩
  have heff := Tape.effect_of_perform h
  exact ⟨heff.legal ht, heff.eq_of_len_ne, heff.eq_of_cursor_ne, fun _ => heff.eq_of_read_ne ht⟩

end Sys2Proof.Machine

namespace Sys2Proof.Machine

/-! ### The data instructions complete (41_dispatch_and_data.md R104 to R108) -/

/-- The cell that a growing `>` moves to is new, so it reads 0 (20_memory.md R58). -/
theorem Tape.read_grow_of_le (t : Tape) {a : Nat} (h : t.len ≤ a) : Memory.read t.grow.cells a = 0 := by
  rw [Tape.grow, Memory.read_below, if_neg (by omega), Memory.unlisted]

/-- Settles O15: a move right inside the tape changes the cursor alone, and at the end of the tape it lands
on the first of the zero cells that `Tape.grow` adds. -/
theorem rightMovesAndGrows : Obligations.RightMovesAndGrows := by
  intro s hc hcap
  by_cases h : s.tape.cursor + 1 < s.tape.len
  · exact ⟨_, (Effect.rightInside h).exec_eq, rfl, fun _ => ⟨rfl, rfl⟩, fun hend => by omega⟩
  · have hend : s.tape.cursor + 1 = s.tape.len := by omega
    exact ⟨_, (Effect.rightGrows hend.ge (hcap hend)).exec_eq, rfl, fun hlt => absurd hlt h,
      fun _ => ⟨rfl, s.tape.sequence_grow, s.tape.read_grow_of_le hend.ge⟩⟩

/-- Settles O17: `<` has one effect away from cursor 0 and one at it. -/
theorem leftMovesOrFaults : Obligations.LeftMovesOrFaults :=
  fun _ => ⟨fun h => (Effect.leftMoves h).exec_eq, fun h => (Effect.leftFaults h).exec_eq⟩

/-- Settles O18: both store `byteInc` or `byteDec` of the current cell, which are addition and subtraction
modulo 256. -/
theorem incAndDecWrapCurrentCell : Obligations.IncAndDecWrapCurrentCell := by
  intro s hc
  constructor
  · refine ⟨_, (Effect.inc hc).exec_eq, ?_, fun a ha => s.tape.read_store_of_ne _ ha⟩
    rw [Memory.read_write_same]
    exact byteInc_toNat _
  · refine ⟨_, (Effect.dec hc).exec_eq, ?_, fun a ha => s.tape.read_store_of_ne _ ha⟩
    rw [Memory.read_write_same]
    exact byteDec_toInt _

theorem isOperatorCode_of_mem {c : Code} {i : Instr} (h : (c, i) ∈ operatorTable) :
    isOperatorCode c = true :=
  List.any_eq_true.mpr ⟨(c, i), h, beq_self_eq_true c⟩

/-- A code that is no operator's decodes to SKIP (30_encoding.md R79). -/
theorem decodeOp_of_not_operator {c : Code} (h : isOperatorCode c = false) : decodeOp c = .skip c := by
  rcases decodeOp_cases c with hrow | ⟨_, hskip⟩
  · simp [isOperatorCode_of_mem hrow] at h
  · exact hskip

/-- Settles O19: a character of the stated width is its own field `op`, which no row of the table matches. -/
theorem inertCharactersOnlyAdvance : Obligations.InertCharactersOnlyAdvance := by
  refine ⟨fun w c hw hop => ?_, fun c _ => (Effect.skip c).exec_eq⟩
  rw [decode, opField_of_lt w c hw, decodeOp_of_not_operator hop]

/-! ### Frames (41_dispatch_and_data.md R103) -/

@[simp] theorem State.jump_phase (s : State) (r : ScanResult) : (s.jump r).phase = s.phase := by
  cases r <;> rfl

@[simp] theorem State.jump_sp (s : State) (r : ScanResult) : (s.jump r).sp = s.sp := by
  cases r <;> rfl

@[simp] theorem State.jump_depth (s : State) (r : ScanResult) : (s.jump r).depth = s.depth := by
  cases r <;> rfl

/-- A taken jump keeps the status or is fault entry. -/
theorem State.jump_status (s : State) (r : ScanResult) :
    (s.jump r).status = s.status ∨ (s.jump r).status = .faulted .unmatchedBracket := by
  cases r with
  | found j => exact .inl rfl
  | unmatched => exact .inr rfl

/-- No instruction touches the registers of the tick refinement (43_control_flow.md R133). -/
theorem Effect.sameScan {i : Instr} {s t : State} (h : Effect i s t) : s.sameScan t := by
  cases h with
  | jzTaken => simp [State.sameScan]
  | jnzTaken => simp [State.sameScan]
  | _ => exact ⟨rfl, rfl, rfl⟩

/-- `.` alone changes the output. -/
theorem Effect.output_eq {i : Instr} {s t : State} (h : Effect i s t) (hi : i ≠ .out) :
    t.output = s.output := by
  cases h with
  | out => exact absurd rfl hi
  | jzTaken => simp
  | jnzTaken => simp
  | _ => rfl

/-- `,` alone changes the input cursor. -/
theorem Effect.inputCursor_eq {i : Instr} {s t : State} (h : Effect i s t) (hi : i ≠ .inp) :
    t.inputCursor = s.inputCursor := by
  simpa [hi] using h.streams.1

/-- An instruction changes the status at fault entry alone, which only `<`, `[` and `]` have. -/
theorem Effect.status_eq_or_faulted {i : Instr} {s t : State} (h : Effect i s t) :
    t.status = s.status ∨ (∃ k, t.status = .faulted k) ∧ (i = .left ∨ i = .jz ∨ i = .jnz) := by
  cases h with
  | leftFaults => exact .inr ⟨⟨_, rfl⟩, .inl rfl⟩
  | jzTaken => exact (s.jump_status _).imp_right fun hf => ⟨⟨_, hf⟩, .inr (.inl rfl)⟩
  | jnzTaken => exact (s.jump_status _).imp_right fun hf => ⟨⟨_, hf⟩, .inr (.inr rfl)⟩
  | _ => exact .inl rfl

/-- The instructions that store to a cell. -/
def Storing (i : Instr) : Prop := i = .inc ∨ i = .dec ∨ i = .inp

/-- A storing instruction's Tape is the Tape with another byte at the cursor, and it keeps the status. -/
theorem Effect.tape_status_of_storing {i : Instr} {s t : State} (h : Effect i s t) (hi : Storing i) :
    (∃ v, t.tape = s.tape.store v) ∧ t.status = s.status := by
  cases h with
  | inc => exact ⟨⟨_, rfl⟩, rfl⟩
  | dec => exact ⟨⟨_, rfl⟩, rfl⟩
  | inp => exact ⟨⟨_, rfl⟩, rfl⟩
  | _ => simp [Storing] at hi

/-- Settles O25: the Tape changes by a store at the cursor, and the other fields by the frames above. -/
theorem storingInstructionsFrame : Obligations.StoringInstructionsFrame := by
  intro i s t hi hexec
  have heff := Effect.of_exec hexec
  obtain ⟨⟨v, htape⟩, hstatus⟩ := heff.tape_status_of_storing hi
  have hout : i ≠ .out := by rintro rfl; simp at hi
  rw [htape]
  exact ⟨fun a ha => s.tape.read_store_of_ne v ha, rfl, rfl, heff.output_eq hout, hstatus, heff.args_eq,
    heff.sameScan, heff.inputCursor_eq, fun hinp => by simpa [hinp] using heff.streams.1⟩

/-- The entries of the cells where nothing is stored: as before, or those below the old length where `>`
grows the tape. -/
theorem Effect.cells_of_not_storing {i : Instr} {s t : State} (h : Effect i s t) (hi : ¬Storing i) :
    t.tape.cells = s.tape.cells ∨
      i = .right ∧ t.tape.cells = Memory.below s.tape.len s.tape.cells := by
  cases h with
  | rightGrows => exact .inr ⟨rfl, rfl⟩
  | inc => exact absurd (.inl rfl) hi
  | dec => exact absurd (.inr (.inl rfl)) hi
  | inp => exact absurd (.inr (.inr rfl)) hi
  | jzTaken => simp
  | jnzTaken => simp
  | _ => exact .inl rfl

/-- Where nothing is stored, every existing cell reads as before. -/
theorem Effect.read_eq_of_not_storing {i : Instr} {s t : State} (h : Effect i s t) (hi : ¬Storing i)
    {a : Nat} (ha : a < s.tape.len) : Memory.read t.tape.cells a = Memory.read s.tape.cells a := by
  rcases h.cells_of_not_storing hi with heq | ⟨_, heq⟩
  · rw [heq]
  · rw [heq, Memory.read_below, if_pos ha]

/-- A legal Tape lists no cell beyond its length, so there growth drops none. -/
theorem Effect.cells_eq_of_legal {i : Instr} {s t : State} (h : Effect i s t) (hi : ¬Storing i)
    (hs : s.tape.Legal) : t.tape.cells = s.tape.cells := by
  rcases h.cells_of_not_storing hi with heq | ⟨_, heq⟩
  · exact heq
  · rw [heq, Memory.below_eq_self _ _ hs.cells_below]

/-- Settles O26: where nothing is stored, the cells change at growth alone, which keeps those there were;
the other fields by the frames above. -/
theorem nonStoringInstructionsFrame : Obligations.NonStoringInstructionsFrame := by
  intro i s t hi hexec
  have heff := Effect.of_exec hexec
  have hstore : ¬Storing i := by
    rcases hi with rfl | rfl | rfl | rfl | rfl | ⟨c, rfl⟩ <;> simp [Storing]
  have hinp : i ≠ .inp := fun h => hstore (.inr (.inr h))
  refine ⟨fun a ha => heff.read_eq_of_not_storing hstore ha,
    fun hs a => by rw [heff.cells_eq_of_legal hstore hs], fun hr => ⟨?_, ?_⟩, heff.cursor_eq,
    heff.output_eq, heff.inputCursor_eq hinp, heff.args_eq, heff.sameScan, heff.status_eq_or_faulted⟩
  · exact (heff.cells_of_not_storing hstore).resolve_right fun ⟨h, _⟩ => hr h
  · exact heff.len_eq fun ⟨h, _⟩ => hr h

/-! ### Halting (41_dispatch_and_data.md R101) -/

/-- No instruction halts a run. -/
theorem Effect.status_ne_halted {i : Instr} {s t : State} (h : Effect i s t) (hs : s.status = .running) :
    t.status ≠ .halted := by
  rcases h.status_eq_or_faulted with heq | ⟨⟨k, hk⟩, _⟩
  · simp [heq, hs]
  · simp [hk]

/-- Settles O35: a step that halts runs no instruction, since none halts a run. -/
theorem haltsExactlyOutsideProgram : Obligations.HaltsExactlyOutsideProgram := by
  intro s t hs hstep
  rcases step_cases s t hstep with ⟨hterm, _⟩ | ⟨_, hip, rfl⟩ | ⟨_, hip, c, _, hexec⟩
  · exact absurd hs hterm
  · exact ⟨iff_of_true rfl hip, fun _ => rfl⟩
  · have hne := (Effect.of_exec hexec).status_ne_halted hs
    exact ⟨iff_of_false hne (by omega), fun h => absurd h hne⟩

end Sys2Proof.Machine

namespace Sys2Proof.Machine

/-! ### The streams of `.` and `,` (42_io.md R115, R116) -/

/-- The input byte at `input_cursor`, where there is one. -/
theorem State.inputByte_of_getElem? {s : State} {v : Byte} (h : s.args.input[s.inputCursor]? = some v) :
    s.inputByte = v := by
  have hlt : s.inputCursor < s.args.input.length := (List.getElem?_eq_some_iff.mp h).1
  rw [State.inputByte, if_neg hlt.not_ge, List.getD_eq_getElem?_getD, h, Option.getD_some]

/-- An exhausted input gives 0 (20_memory.md R53). -/
theorem State.inputByte_of_exhausted {s : State} (h : s.args.input.length ≤ s.inputCursor) :
    s.inputByte = 0 :=
  if_pos h

/-- Settles O21: `,` stores `State.inputByte` at the cursor, which is the next input byte or 0. -/
theorem inStoresInputByteOrZero : Obligations.InStoresInputByteOrZero := by
  intro s hc
  have hcell : Memory.read (s.tape.store s.inputByte).cells s.tape.cursor = s.inputByte :=
    s.tape.read_store_self _
  exact ⟨_, (Effect.inp hc).exec_eq, fun v hv => hcell.trans (State.inputByte_of_getElem? hv),
    fun hend => hcell.trans (State.inputByte_of_exhausted hend), fun a ha => s.tape.read_store_of_ne _ ha⟩

/-- Settles O20: `.` has one effect where the cursor is on a cell. -/
theorem outAppendsCurrentCell : Obligations.OutAppendsCurrentCell :=
  fun _ hc => (Effect.out hc).exec_eq

end Sys2Proof.Machine

namespace Sys2Proof.Machine

/-! ### The nesting counter counts brackets (43_control_flow.md R125, R126) -/

theorem jz_ne_jnz : Instr.jz ≠ .jnz := by decide

theorem jnz_ne_jz : Instr.jnz ≠ .jz := jz_ne_jnz.symm

/-- The counter `d` and the character after which it is `nest o c d i`: over any characters that follow, the
closing less the opening ones stay the same distance from it. -/
theorem count_cons_add_nest {o c : Instr} (hoc : o ≠ c) {d : Nat} (hd : d ≠ 0) (i : Instr)
    (l : List Instr) :
    (i :: l).count c + nest o c d i + l.count o = (i :: l).count o + d + l.count c := by
  by_cases hc : i = c
  · subst hc
    simp [nest, hoc.symm]
    omega
  · by_cases ho : i = o
    · subst ho
      simp [nest, hc]
      omega
    · simp [nest_other o c d i ho hc, hc, ho]
      omega

/-- Up to and with character `k` the closing characters outnumber the opening ones by exactly `d`: a scan
that starts with the counter at `d` has it at 0 there. -/
def Ends (o c : Instr) (d : Nat) (l : List Instr) (k : Nat) : Prop :=
  k < l.length ∧ (l.take (k + 1)).count c = (l.take (k + 1)).count o + d

theorem ends_cons_zero {o c : Instr} (hoc : o ≠ c) {d : Nat} (hd : d ≠ 0) (i : Instr)
    (l : List Instr) : Ends o c d (i :: l) 0 ↔ nest o c d i = 0 := by
  have hcount := count_cons_add_nest hoc hd i []
  simp only [List.count_nil] at hcount
  simp only [Ends, List.length_cons, List.take_succ_cons, List.take_zero]
  omega

theorem ends_cons_succ {o c : Instr} (hoc : o ≠ c) {d : Nat} (hd : d ≠ 0) (i : Instr)
    (l : List Instr) (k : Nat) : Ends o c d (i :: l) (k + 1) ↔ Ends o c (nest o c d i) l k := by
  have hcount := count_cons_add_nest hoc hd i (l.take (k + 1))
  simp only [Ends, List.length_cons, List.take_succ_cons]
  omega

/-- A scan stops at the first character that brings the counter to 0. -/
theorem scan_eq_some_iff {o c : Instr} (hoc : o ≠ c) {d : Nat} (hd : d ≠ 0) (l : List Instr) (k : Nat) :
    scan o c d l = some k ↔ Ends o c d l k ∧ ∀ m < k, ¬ Ends o c d l m := by
  induction l generalizing d k with
  | nil => simp [Ends]
  | cons i l ih =>
    have hzero := ends_cons_zero hoc hd i l
    rw [scan_cons]
    by_cases hn : nest o c d i = 0
    · cases k with
      | zero => simp [hn, hzero]
      | succ k => simpa [hn] using fun _ => ⟨0, k.zero_le, hzero.mpr hn⟩
    · cases k with
      | zero => simp [hn, hzero]
      | succ k =>
        rw [if_neg hn]
        simp only [Option.map_eq_some_iff, Nat.add_right_cancel_iff, exists_eq_right, ih hn,
          ends_cons_succ hoc hd, Nat.forall_lt_succ_left, hzero, hn, not_false_eq_true, true_and]

/-- A scan that passes every character met none that brings the counter to 0. -/
theorem scan_eq_none_iff {o c : Instr} (hoc : o ≠ c) {d : Nat} (hd : d ≠ 0) (l : List Instr) :
    scan o c d l = none ↔ ∀ k, ¬ Ends o c d l k := by
  classical
  constructor
  · intro hnone k hk
    have hfirst := (scan_eq_some_iff hoc hd l _).mpr
      ⟨Nat.find_spec ⟨k, hk⟩, fun m hm => Nat.find_min ⟨k, hk⟩ hm⟩
    simp [hnone] at hfirst
  · intro hno
    cases hscan : scan o c d l with
    | none => rfl
    | some k => exact absurd ((scan_eq_some_iff hoc hd l k).mp hscan).1 (hno k)

/-- Before the character at which a scan stops the counter is at least 1. -/
theorem count_take_lt_of_scan {o c : Instr} (hoc : o ≠ c) {d : Nat} (hd : d ≠ 0) {l : List Instr}
    {m : Nat}
    (hm : m ≤ l.length) (h : ∀ k, scan o c d l = some k → m ≤ k) :
    (l.take m).count c < (l.take m).count o + d := by
  induction l generalizing d m with
  | nil => simpa using Nat.pos_of_ne_zero hd
  | cons i l ih =>
    cases m with
    | zero => simpa using Nat.pos_of_ne_zero hd
    | succ m =>
      rw [scan_cons] at h
      have hn : nest o c d i ≠ 0 := fun hz => absurd (h 0 (if_pos hz)) (by omega)
      have hrest := ih (m := m) hn (by simpa using hm) fun k hk =>
        Nat.le_of_succ_le_succ (h (k + 1) (by simp [hn, hk]))
      have hcount := count_cons_add_nest hoc hd i (l.take m)
      simp only [List.take_succ_cons]
      omega

/-! ### Brackets between two places of a program -/

theorem countBetween_eq_drop_take (p : List Instr) (x : Instr) (lo n : Nat) :
    countBetween p x lo (lo + n) = ((p.drop lo).take n).count x := by
  rw [countBetween, List.drop_take, Nat.add_sub_cancel_left]

theorem countBetween_eq_reverse_take {p : List Instr} (x : Instr) {n hi : Nat} (hhi : hi ≤ p.length) :
    countBetween p x (hi - n) hi = ((p.take hi).reverse.take n).count x := by
  rw [List.take_reverse, List.count_reverse, List.length_take, Nat.min_eq_left hhi, countBetween]

theorem countBetween_add (p : List Instr) (x : Instr) {lo mid hi : Nat} (hlo : lo ≤ mid)
    (hhi : mid ≤ hi) :
    countBetween p x lo hi = countBetween p x lo mid + countBetween p x mid hi := by
  obtain ⟨a, rfl⟩ := Nat.exists_eq_add_of_le hlo
  obtain ⟨b, rfl⟩ := Nat.exists_eq_add_of_le hhi
  rw [Nat.add_assoc, countBetween_eq_drop_take, countBetween_eq_drop_take, ← Nat.add_assoc,
    countBetween_eq_drop_take, List.take_add, List.count_append, List.drop_drop]

theorem countBetween_one {p : List Instr} {i : Nat} {y : Instr} (h : p[i]? = some y) (x : Instr) :
    countBetween p x i (i + 1) = if y = x then 1 else 0 := by
  rw [countBetween_eq_drop_take, List.take_one, List.head?_drop, h]
  simp [List.count_singleton]

/-! ### `MatchFwd` (43_control_flow.md R125, R127) -/

theorem matchFwd_eq_found_iff_scan (p : List Instr) (i j : Nat) :
    matchFwd p i = .found j ↔ ∃ k, scan .jz .jnz 1 (p.drop (i + 1)) = some k ∧ i + 1 + k = j := by
  unfold matchFwd
  cases scan .jz .jnz 1 (p.drop (i + 1)) <;> simp

theorem matchFwd_eq_unmatched_iff_scan (p : List Instr) (i : Nat) :
    matchFwd p i = .unmatched ↔ scan .jz .jnz 1 (p.drop (i + 1)) = none := by
  unfold matchFwd
  cases scan .jz .jnz 1 (p.drop (i + 1)) <;> simp

theorem closesFwd_add_iff_ends (p : List Instr) (i k : Nat) :
    ClosesFwd p i (i + 1 + k) ↔ Ends .jz .jnz 1 (p.drop (i + 1)) k := by
  simp only [ClosesFwd, Ends, Nat.add_assoc (i + 1), countBetween_eq_drop_take, List.length_drop]
  omega

/-- `MatchFwd` finds the first index that closes the bracket. -/
theorem matchFwd_eq_found_iff (p : List Instr) (i j : Nat) :
    matchFwd p i = .found j ↔ ClosesFwd p i j ∧ ∀ k, k < j → ¬ ClosesFwd p i k := by
  simp only [matchFwd_eq_found_iff_scan, scan_eq_some_iff jz_ne_jnz one_ne_zero,
    ← closesFwd_add_iff_ends]
  constructor
  · rintro ⟨n, ⟨hn, hmin⟩, rfl⟩
    refine ⟨hn, fun k hk hcloses => ?_⟩
    obtain ⟨m, rfl⟩ := Nat.exists_eq_add_of_le (Nat.succ_le_of_lt hcloses.1)
    exact hmin m (by omega) hcloses
  · rintro ⟨hj, hmin⟩
    obtain ⟨n, rfl⟩ := Nat.exists_eq_add_of_le (Nat.succ_le_of_lt hj.1)
    exact ⟨n, ⟨hj, fun m hm => hmin _ (by omega)⟩, rfl⟩

theorem matchFwd_eq_unmatched_iff (p : List Instr) (i : Nat) :
    matchFwd p i = .unmatched ↔ ∀ j, ¬ ClosesFwd p i j := by
  simp only [matchFwd_eq_unmatched_iff_scan, scan_eq_none_iff jz_ne_jnz one_ne_zero,
    ← closesFwd_add_iff_ends]
  refine ⟨fun hno j hj => ?_, fun hno k => hno _⟩
  obtain ⟨n, rfl⟩ := Nat.exists_eq_add_of_le (Nat.succ_le_of_lt hj.1)
  exact hno n hj

/-- Before the partner the counter of `MatchFwd` is at least 1. -/
theorem matchFwd_counter_pos {p : List Instr} {i k : Nat} (hik : i ≤ k) (hk : k < p.length)
    (h : ∀ j, matchFwd p i = .found j → k < j) :
    countBetween p .jnz (i + 1) (k + 1) ≤ countBetween p .jz (i + 1) (k + 1) := by
  obtain ⟨n, rfl⟩ := Nat.exists_eq_add_of_le hik
  have hlt := count_take_lt_of_scan (o := .jz) (c := .jnz) jz_ne_jnz one_ne_zero
    (l := p.drop (i + 1)) (m := n) (by rw [List.length_drop]; omega) fun s hs => by
      have := h _ ((matchFwd_eq_found_iff_scan p i _).mpr ⟨s, hs, rfl⟩)
      omega
  rw [Nat.add_right_comm, countBetween_eq_drop_take, countBetween_eq_drop_take]
  omega

/-- Settles O27: the scan of what follows the bracket stops where its counter, a difference of two counts,
first reaches 0. -/
theorem matchFwdFindsFirstClosing : Obligations.MatchFwdFindsFirstClosing :=
  fun p i => ⟨matchFwd_eq_found_iff p i, fun _ => matchFwd_closes, matchFwd_eq_unmatched_iff p i,
    fun _ => matchFwd_counter_pos⟩

/-! ### `MatchBwd` (43_control_flow.md R126, R128) -/

theorem matchBwd_eq_found_iff_scan (p : List Instr) (i j : Nat) :
    matchBwd p i = .found j ↔ ∃ k, scan .jnz .jz 1 (p.take i).reverse = some k ∧ i - 1 - k = j := by
  unfold matchBwd
  cases scan .jnz .jz 1 (p.take i).reverse <;> simp

theorem matchBwd_eq_unmatched_iff_scan (p : List Instr) (i : Nat) :
    matchBwd p i = .unmatched ↔ scan .jnz .jz 1 (p.take i).reverse = none := by
  unfold matchBwd
  cases scan .jnz .jz 1 (p.take i).reverse <;> simp

theorem ends_reverse_take_iff_closesBwd {p : List Instr} {i : Nat} (hi : i < p.length) (k : Nat) :
    Ends .jnz .jz 1 (p.take i).reverse k ↔ k < i ∧ ClosesBwd p i (i - 1 - k) := by
  simp only [ClosesBwd, Ends, ← countBetween_eq_reverse_take _ hi.le, List.length_reverse,
    List.length_take, Nat.min_eq_left hi.le, Nat.sub_sub i 1 k, Nat.add_comm 1 k]
  omega

/-- `MatchBwd` finds the nearest index that opens the bracket. -/
theorem matchBwd_eq_found_iff {p : List Instr} {i : Nat} (hi : i < p.length) (j : Nat) :
    matchBwd p i = .found j ↔ ClosesBwd p i j ∧ ∀ k, j < k → ¬ ClosesBwd p i k := by
  simp only [matchBwd_eq_found_iff_scan, scan_eq_some_iff jnz_ne_jz one_ne_zero,
    ends_reverse_take_iff_closesBwd hi]
  constructor
  · rintro ⟨n, ⟨⟨hni, hn⟩, hmin⟩, rfl⟩
    refine ⟨hn, fun k hk hcloses => ?_⟩
    have hki := hcloses.1
    refine hmin (i - 1 - k) (by omega) ⟨by omega, ?_⟩
    rwa [Nat.sub_sub_self (by omega)]
  · rintro ⟨hj, hmin⟩
    have hji := hj.1
    have hback : i - 1 - (i - 1 - j) = j := Nat.sub_sub_self (by omega)
    refine ⟨i - 1 - j, ⟨⟨by omega, hback.symm ▸ hj⟩, fun m hm hclosing => ?_⟩, hback⟩
    exact hmin _ (by omega) hclosing.2

theorem matchBwd_eq_unmatched_iff {p : List Instr} {i : Nat} (hi : i < p.length) :
    matchBwd p i = .unmatched ↔ ∀ j, ¬ ClosesBwd p i j := by
  simp only [matchBwd_eq_unmatched_iff_scan, scan_eq_none_iff jnz_ne_jz one_ne_zero,
    ends_reverse_take_iff_closesBwd hi]
  refine ⟨fun hno j hj => ?_, fun hno k hk => hno _ hk.2⟩
  have hji := hj.1
  refine hno (i - 1 - j) ⟨by omega, ?_⟩
  rwa [Nat.sub_sub_self (by omega)]

/-- Before the partner the counter of `MatchBwd` is at least 1. -/
theorem matchBwd_counter_pos {p : List Instr} {i k : Nat} (hi : i < p.length) (hk : k ≤ i)
    (h : ∀ j, matchBwd p i = .found j → j < k) :
    countBetween p .jz k i ≤ countBetween p .jnz k i := by
  have hlt := count_take_lt_of_scan (o := .jnz) (c := .jz) jnz_ne_jz one_ne_zero
    (l := (p.take i).reverse) (m := i - k) (by simp; omega) fun s hs => by
      have := h _ ((matchBwd_eq_found_iff_scan p i _).mpr ⟨s, hs, rfl⟩)
      omega
  rw [← countBetween_eq_reverse_take _ hi.le, ← countBetween_eq_reverse_take _ hi.le,
    Nat.sub_sub_self hk] at hlt
  omega

/-- Settles O28: the scan of what precedes the bracket, nearest first, stops where its counter, a difference
of two counts, first reaches 0. -/
theorem matchBwdFindsNearestOpening : Obligations.MatchBwdFindsNearestOpening :=
  fun _ _ hi => ⟨matchBwd_eq_found_iff hi, fun _ => matchBwd_opens hi, matchBwd_eq_unmatched_iff hi,
    fun _ => matchBwd_counter_pos hi⟩

end Sys2Proof.Machine

namespace Sys2Proof.Machine

/-! ### The nesting height of a place in a program -/

/-- The opening less the closing brackets before place `k`. -/
def height (p : List Instr) (k : Nat) : Int := (p.take k).count .jz - (p.take k).count .jnz

@[simp] theorem height_zero (p : List Instr) : height p 0 = 0 := by simp [height]

theorem height_sub_height (p : List Instr) {lo hi : Nat} (h : lo ≤ hi) :
    height p hi - height p lo = countBetween p .jz lo hi - countBetween p .jnz lo hi := by
  have hjz := countBetween_add p .jz lo.zero_le h
  have hjnz := countBetween_add p .jnz lo.zero_le h
  simp only [countBetween, List.drop_zero] at *
  simp only [height]
  omega

theorem height_succ_of_jz {p : List Instr} {i : Nat} (h : p[i]? = some .jz) :
    height p (i + 1) = height p i + 1 := by
  have hsub := height_sub_height p (Nat.le_add_right i 1)
  simp only [countBetween_one h, if_pos, if_neg jz_ne_jnz] at hsub
  omega

theorem height_succ_of_jnz {p : List Instr} {i : Nat} (h : p[i]? = some .jnz) :
    height p (i + 1) + 1 = height p i := by
  have hsub := height_sub_height p (Nat.le_add_right i 1)
  simp only [countBetween_one h, if_pos, if_neg jnz_ne_jz] at hsub
  omega

theorem closesFwd_iff_height (p : List Instr) (i j : Nat) :
    ClosesFwd p i j ↔ i < j ∧ j < p.length ∧ height p (j + 1) + 1 = height p (i + 1) := by
  refine and_congr_right fun hij => and_congr_right fun _ => ?_
  have hsub := height_sub_height p (Nat.add_le_add_right hij.le 1)
  omega

theorem closesBwd_iff_height (p : List Instr) (i j : Nat) :
    ClosesBwd p i j ↔ j < i ∧ i < p.length ∧ height p i = height p j + 1 := by
  refine and_congr_right fun hji => and_congr_right fun _ => ?_
  have hsub := height_sub_height p hji.le
  omega

/-- Up to the partner of `[` no place is lower than the one just after it. -/
theorem height_ge_of_matchFwd {p : List Instr} {i k : Nat} (hik : i ≤ k) (hk : k < p.length)
    (h : ∀ j, matchFwd p i = .found j → k < j) : height p (i + 1) ≤ height p (k + 1) := by
  have hpos := matchFwd_counter_pos hik hk h
  have hsub := height_sub_height p (Nat.add_le_add_right hik 1)
  omega

/-- Back to the partner of `]` no place is lower than the one of `]`. -/
theorem height_ge_of_matchBwd {p : List Instr} {i k : Nat} (hi : i < p.length) (hk : k ≤ i)
    (h : ∀ j, matchBwd p i = .found j → j < k) : height p i ≤ height p k := by
  have hpos := matchBwd_counter_pos hi hk h
  have hsub := height_sub_height p hk
  omega

/-! ### The two scans agree (43_control_flow.md R129 (c)) -/

/-- `[` at `i` and `]` at `j` on one level, and nothing between them below it. It reads the same in both
directions. -/
structure Partners (p : List Instr) (i j : Nat) : Prop where
  lt : i < j
  opens : p[i]? = some .jz
  closes : p[j]? = some .jnz
  level : height p (i + 1) = height p j
  above : ∀ k, i < k → k ≤ j → height p j ≤ height p k

theorem lt_length_of_getElem? {α : Type} {l : List α} {i : Nat} {x : α} (h : l[i]? = some x) :
    i < l.length :=
  (List.getElem?_eq_some_iff.mp h).1

theorem matchFwd_found_iff_partners (p : List Instr) (i j : Nat) :
    (p[i]? = some .jz ∧ matchFwd p i = .found j) ↔ Partners p i j := by
  constructor
  · rintro ⟨hopens, hfound⟩
    have hcloses := matchFwd_closes hfound
    obtain ⟨hij, hj, hheight⟩ :=
      (closesFwd_iff_height p i j).mp ((matchFwd_eq_found_iff p i j).mp hfound).1
    have hdown := height_succ_of_jnz hcloses
    refine ⟨hij, hopens, hcloses, by omega, fun k hik hkj => ?_⟩
    obtain ⟨m, rfl⟩ := Nat.exists_eq_add_of_le' (Nat.one_le_of_lt hik)
    have hge := height_ge_of_matchFwd (p := p) (i := i) (k := m) (by omega) (by omega) fun j' hj' => by
      obtain rfl : j = j' := by simpa [hfound] using hj'
      omega
    omega
  · rintro ⟨hij, hopens, hcloses, hlevel, habove⟩
    have hdown := height_succ_of_jnz hcloses
    refine ⟨hopens, (matchFwd_eq_found_iff p i j).mpr ⟨?_, fun k hkj hk => ?_⟩⟩
    · exact (closesFwd_iff_height p i j).mpr ⟨hij, lt_length_of_getElem? hcloses, by omega⟩
    · obtain ⟨hik, _, hheight⟩ := (closesFwd_iff_height p i k).mp hk
      have := habove (k + 1) (by omega) (by omega)
      omega

theorem matchBwd_found_iff_partners (p : List Instr) (i j : Nat) :
    (p[j]? = some .jnz ∧ matchBwd p j = .found i) ↔ Partners p i j := by
  constructor
  · rintro ⟨hcloses, hfound⟩
    have hj := lt_length_of_getElem? hcloses
    have hopens := matchBwd_opens hj hfound
    obtain ⟨hij, _, hheight⟩ :=
      (closesBwd_iff_height p j i).mp ((matchBwd_eq_found_iff hj i).mp hfound).1
    have hup := height_succ_of_jz hopens
    refine ⟨hij, hopens, hcloses, by omega, fun k hik hkj => ?_⟩
    exact height_ge_of_matchBwd hj hkj fun i' hi' => by
      obtain rfl : i = i' := by simpa [hfound] using hi'
      exact hik
  · rintro ⟨hij, hopens, hcloses, hlevel, habove⟩
    have hj := lt_length_of_getElem? hcloses
    have hup := height_succ_of_jz hopens
    refine ⟨hcloses, (matchBwd_eq_found_iff hj i).mpr ⟨?_, fun k hik hk => ?_⟩⟩
    · exact (closesBwd_iff_height p j i).mpr ⟨hij, hj, by omega⟩
    · obtain ⟨hkj, _, hheight⟩ := (closesBwd_iff_height p j k).mp hk
      have := habove k hik hkj.le
      omega

/-- Settles O29: both scans find the one place that `Partners` describes. -/
theorem scansAgree : Obligations.ScansAgree :=
  fun p i j => (matchFwd_found_iff_partners p i j).trans (matchBwd_found_iff_partners p i j).symm

/-! ### The scans see brackets alone (43_control_flow.md R129 (b), 30_encoding.md R76) -/

/-- The instruction where it is a bracket, and else one and the same inert character. -/
def eraseInert (i : Instr) : Instr := if i = .jz ∨ i = .jnz then i else .skip 0

theorem eraseInert_eq_jz_iff (i : Instr) : eraseInert i = .jz ↔ i = .jz := by
  unfold eraseInert
  split
  · rfl
  · simp_all

theorem eraseInert_eq_jnz_iff (i : Instr) : eraseInert i = .jnz ↔ i = .jnz := by
  unfold eraseInert
  split
  · rfl
  · simp_all

theorem eraseInert_congr {i i' : Instr} (hjz : i = .jz ↔ i' = .jz) (hjnz : i = .jnz ↔ i' = .jnz) :
    eraseInert i = eraseInert i' := by
  by_cases h : i = .jz
  · rw [h, hjz.mp h]
  · by_cases h' : i = .jnz
    · rw [h', hjnz.mp h']
    · simp only [eraseInert, ← hjz, ← hjnz, h, h', or_self, if_false]

/-- A scan for one kind of bracket and the other does not tell inert characters apart. -/
theorem scan_map_eraseInert {o c : Instr} (ho : ∀ i, eraseInert i = o ↔ i = o)
    (hc : ∀ i, eraseInert i = c ↔ i = c) (d : Nat) (l : List Instr) :
    scan o c d (l.map eraseInert) = scan o c d l := by
  induction l generalizing d with
  | nil => rfl
  | cons i l ih =>
    have hnest : nest o c d (eraseInert i) = nest o c d i := by simp only [nest, ho, hc]
    rw [List.map_cons, scan_cons, scan_cons, hnest, ih]

theorem matchFwd_map_eraseInert (p : List Instr) (i : Nat) :
    matchFwd (p.map eraseInert) i = matchFwd p i := by
  rw [matchFwd, ← List.map_drop, scan_map_eraseInert eraseInert_eq_jz_iff eraseInert_eq_jnz_iff, matchFwd]

theorem matchBwd_map_eraseInert (p : List Instr) (i : Nat) :
    matchBwd (p.map eraseInert) i = matchBwd p i := by
  rw [matchBwd, ← List.map_take, ← List.map_reverse,
    scan_map_eraseInert eraseInert_eq_jnz_iff eraseInert_eq_jz_iff, matchBwd]

/-- Programs of one length with their brackets at the same places are the same but for inert characters. -/
theorem map_eraseInert_congr {p q : List Instr} (hlen : p.length = q.length)
    (h : ∀ k : Nat, (p[k]? = some Instr.jz ↔ q[k]? = some Instr.jz) ∧
      (p[k]? = some Instr.jnz ↔ q[k]? = some Instr.jnz)) : p.map eraseInert = q.map eraseInert := by
  refine List.ext_getElem (by simpa using hlen) fun k hkp hkq => ?_
  rw [List.length_map] at hkp hkq
  have hk := h k
  simp only [List.getElem?_eq_getElem hkp, List.getElem?_eq_getElem hkq, Option.some.injEq] at hk
  simpa using eraseInert_congr hk.1 hk.2

/-- Settles O30: a scan of a program is the scan of its brackets, which the two programs share. -/
theorem scansSeeBracketsAlone : Obligations.ScansSeeBracketsAlone := by
  intro p q hlen h i
  rw [← matchFwd_map_eraseInert p, ← matchBwd_map_eraseInert p, map_eraseInert_congr hlen h,
    matchFwd_map_eraseInert, matchBwd_map_eraseInert]
  exact ⟨rfl, rfl⟩

end Sys2Proof.Machine

namespace Sys2Proof.Machine

/-! ### Well-formed programs (43_control_flow.md R129 (d)) -/

theorem height_cons_succ (i : Instr) (p : List Instr) (k : Nat) :
    height (i :: p) (k + 1) = height [i] 1 + height p k := by
  simp only [height, List.take_succ_cons, List.take_zero, List.count_cons, List.count_nil]
  omega

theorem height_append (p q : List Instr) (k : Nat) :
    height (p ++ q) k = height p k + height q (k - p.length) := by
  simp only [height, List.take_append, List.count_append]
  omega

theorem height_length_of_le {p : List Instr} {k : Nat} (h : p.length ≤ k) :
    height p k = height p p.length := by
  simp [height, List.take_of_length_le h]

/-- In a well-formed program no place is lower than its beginning, and its end is as high. -/
theorem Balanced.height_bounds {p : List Instr} (h : Balanced p) :
    (∀ k, 0 ≤ height p k) ∧ height p p.length = 0 := by
  induction h with
  | nil => simp [height]
  | plain i p hjz hjnz _ ih =>
    obtain ⟨hge, hend⟩ := ih
    have hi : height [i] 1 = 0 := by simp [height, hjz, hjnz]
    refine ⟨fun k => ?_, by rw [List.length_cons, height_cons_succ, hi, hend]; rfl⟩
    cases k with
    | zero => simp
    | succ k => rw [height_cons_succ, hi, zero_add]; exact hge k
  | loop body rest _ _ ihb ihr =>
    obtain ⟨hbge, hbend⟩ := ihb
    obtain ⟨hrge, hrend⟩ := ihr
    have hjz : height [.jz] 1 = 1 := rfl
    have hjnz : height [.jnz] 1 = -1 := rfl
    constructor
    · intro k
      cases k with
      | zero => simp
      | succ k =>
        rw [height_cons_succ, height_append, hjz]
        have hb := hbge k
        cases hk : k - body.length with
        | zero => simp; omega
        | succ m =>
          have hr := hrge m
          rw [height_cons_succ, hjnz]
          omega
    · simp only [List.length_cons, List.length_append, height_cons_succ, height_append, hjz,
        Nat.add_sub_cancel_left, hjnz, hrend]
      rw [height_length_of_le (by omega), hbend]
      rfl

/-- In a well-formed program no `[` lacks its partner. -/
theorem Balanced.matchFwd_ne_unmatched {p : List Instr} (h : Balanced p) {i : Nat}
    (hi : p[i]? = some .jz) : matchFwd p i ≠ .unmatched := by
  intro hun
  obtain ⟨hge, hend⟩ := h.height_bounds
  have hlt := lt_length_of_getElem? hi
  have hup := height_succ_of_jz hi
  have hlow := height_ge_of_matchFwd (p := p) (i := i) (k := p.length - 1) (by omega) (by omega)
    (by simp [hun])
  rw [Nat.sub_add_cancel (by omega), hend] at hlow
  have := hge i
  omega

/-- In a well-formed program no `]` lacks its partner. -/
theorem Balanced.matchBwd_ne_unmatched {p : List Instr} (h : Balanced p) {i : Nat}
    (hi : p[i]? = some .jnz) : matchBwd p i ≠ .unmatched := by
  intro hun
  obtain ⟨hge, _⟩ := h.height_bounds
  have hdown := height_succ_of_jnz hi
  have hlow := height_ge_of_matchBwd (lt_length_of_getElem? hi) i.zero_le (by simp [hun])
  rw [height_zero] at hlow
  have := hge (i + 1)
  omega

/-- The instruction at `ip` is the decoded character there (30_encoding.md R71). -/
theorem program_getElem?_ip {s : State} {c : Code} (h : s.fetch = some c) :
    s.program[s.ip]? = some (decode s.args.charW c) := by
  rw [State.program, decodeProgram, List.getElem?_map, ← State.fetch, h, Option.map_some]

/-- A jump whose scan found a partner keeps the status. -/
theorem State.jump_status_of_ne {s : State} {r : ScanResult} (h : r ≠ .unmatched) :
    (s.jump r).status = s.status := by
  cases r with
  | found j => rfl
  | unmatched => exact absurd rfl h

/-- An instruction of a well-formed program enters no fault `UnmatchedBracket`. -/
theorem Effect.status_ne_unmatchedBracket {i : Instr} {s t : State} (h : Effect i s t)
    (hbal : Balanced s.program) (hi : s.program[s.ip]? = some i)
    (hs : s.status ≠ .faulted .unmatchedBracket) : t.status ≠ .faulted .unmatchedBracket := by
  cases h with
  | leftFaults => simp
  | jzTaken => rwa [State.jump_status_of_ne (hbal.matchFwd_ne_unmatched hi)]
  | jnzTaken => rwa [State.jump_status_of_ne (hbal.matchBwd_ne_unmatched hi)]
  | _ => exact hs

/-- No step of a well-formed program enters the fault `UnmatchedBracket`. -/
theorem step_status_ne_unmatchedBracket {s t : State} (h : step s = .next t)
    (hbal : Balanced s.program) (hs : s.status ≠ .faulted .unmatchedBracket) :
    t.status ≠ .faulted .unmatchedBracket := by
  rcases step_cases s t h with ⟨_, rfl⟩ | ⟨_, _, rfl⟩ | ⟨_, _, c, hc, hexec⟩
  · exact hs
  · simp
  · exact (Effect.of_exec hexec).status_ne_unmatchedBracket hbal (program_getElem?_ip hc) hs

theorem step_program_eq {s t : State} (h : step s = .next t) : t.program = s.program := by
  rw [State.program, State.program, step_args_eq h]

/-- A property that every transition keeps holds at the end of every run from a state that has it. -/
theorem iterate_keeps {f : State → Host.Outcome State Fault Refusal} {P : State → Prop}
    (hf : ∀ {s t}, f s = .next t → P s → P t) {n : Nat} {s t : State} (h : iterate f n s = .next t) :
    P s → P t :=
  iterate_rel (R := fun s t => P s → P t) (fun _ => id) (fun hsu hut => hut ∘ hsu) hf h

theorem State.status_of_result_err {s : State} {k : FaultKind} (h : s.result = some (.err k)) :
    s.status = .faulted k := by
  cases hs : s.status with
  | running => simp [State.result, hs] at h
  | halted => simp [State.result, hs] at h
  | faulted k' => simpa [State.result, hs] using h

/-- Settles O31: where the places of a program are nowhere lower than its two ends, a scan from a bracket
of it meets the level it looks for. -/
theorem balancedProgramsNeverUnmatched : Obligations.BalancedProgramsNeverUnmatched := by
  constructor
  · intro s t hbal hstep
    contrapose
    exact step_status_ne_unmatchedBracket hstep hbal
  · rintro a hbal ⟨n, t, hrun, hresult⟩
    have hkeeps := iterate_keeps
      (P := fun s => Balanced s.program ∧ s.status ≠ .faulted .unmatchedBracket)
      (fun hstep ⟨hp, hs⟩ =>
        ⟨(step_program_eq hstep).symm ▸ hp, step_status_ne_unmatchedBracket hstep hp hs⟩) hrun
    obtain ⟨_, hne⟩ := hkeeps ⟨hbal, by simp⟩
    exact hne (State.status_of_result_err hresult)

end Sys2Proof.Machine

namespace Sys2Proof.Machine

/-! ### A tick of a scan (43_control_flow.md R135 to R137, R139) -/

/-- `ScanMove s t`: a tick of a scan takes `s` to `t`, one constructor for each way it can go on or end.
`tick_scanMove` ties it to `tick`. -/
inductive ScanMove (s : State) : State → Prop where
  | fails : ScanMove s s.failScan
  | lands (j : Nat) : ScanMove s (s.landScan j)
  | forward {i : Instr} (hp : s.phase = .scanF) (hi : s.program[s.sp + 1]? = some i)
      (hd : nest .jz .jnz s.depth i ≠ 0) :
      ScanMove s (s.setScan .scanF (s.sp + 1) (nest .jz .jnz s.depth i))
  | backward {i : Instr} (hp : s.phase = .scanB) (hsp : s.sp ≠ 0) (hi : s.program[s.sp - 1]? = some i)
      (hd : nest .jnz .jz s.depth i ≠ 0) :
      ScanMove s (s.setScan .scanB (s.sp - 1) (nest .jnz .jz s.depth i))

theorem ScanMove.scanned {s : State} {p : Phase} {j d : Nat}
    (h : d ≠ 0 → ScanMove s (s.setScan p j d)) : ScanMove s (s.scanned p j d) := by
  unfold State.scanned
  split
  · exact .lands j
  · next hd => exact h hd

theorem tickScanF_scanMove {s : State} (hp : s.phase = .scanF) : ScanMove s (tickScanF s) := by
  unfold tickScanF
  cases hi : s.program[s.sp + 1]? with
  | none => exact .fails
  | some i => exact .scanned (.forward hp hi)

theorem tickScanB_scanMove {s : State} (hp : s.phase = .scanB) : ScanMove s (tickScanB s) := by
  unfold tickScanB
  split
  · exact .fails
  · next hsp =>
    cases hi : s.program[s.sp - 1]? with
    | none => exact .fails
    | some i => exact .scanned (.backward hp hsp hi)

/-- Everything a tick in the middle of a scan can do. -/
theorem tick_scanMove {s t : State} (hp : s.phase ≠ .fetch) (hs : s.status = .running)
    (h : tick s = .next t) : ScanMove s t := by
  rcases tick_cases h with ⟨hterm, _⟩ | ⟨_, hf, _⟩ | ⟨_, hf, _⟩ | ⟨_, hF, rfl⟩ | ⟨_, hB, rfl⟩
  · exact absurd hs hterm
  · exact absurd hf hp
  · exact absurd hf hp
  · exact tickScanF_scanMove hF
  · exact tickScanB_scanMove hB

/-- Settles O51: each of the ways a scan goes on or ends writes the scan registers, `ip` and the status
alone. -/
theorem scanTicksTouchNothingElse : Obligations.ScanTicksTouchNothingElse := by
  intro s t hp hs h
  cases tick_scanMove hp hs h with
  | fails => exact ⟨rfl, rfl, rfl, rfl, fun hne => absurd rfl hne, fun _ => .inr ⟨rfl, rfl⟩⟩
  | lands j => exact ⟨rfl, rfl, rfl, rfl, fun hne => absurd rfl hne, fun _ => .inl ⟨hs, j.succ_pos⟩⟩
  | forward => exact ⟨rfl, rfl, rfl, rfl, fun _ => ⟨rfl, hs⟩, fun hf => by simp at hf⟩
  | backward => exact ⟨rfl, rfl, rfl, rfl, fun _ => ⟨rfl, hs⟩, fun hf => by simp at hf⟩

/-! ### The scan registers stay legal (43_control_flow.md R139) -/

/-- At an instruction boundary the scan registers are free. -/
theorem State.ScanLegal.of_fetch {s : State} (h : s.phase = .fetch) : s.ScanLegal :=
  ⟨fun hne => absurd h hne, fun hne => absurd h hne, fun hne => absurd h hne, fun hF => by simp [h] at hF,
    fun hB => by simp [h] at hB⟩

theorem State.ScanLegal.beginScanF {s : State} (hs : s.status = .running) (hip : s.ip < s.plen) :
    (s.beginScan .scanF).ScanLegal :=
  ⟨fun _ => hs, fun _ => hip, fun _ => le_rfl, fun _ => ⟨le_rfl, hip, Nat.le_add_right _ _⟩, nofun⟩

theorem State.ScanLegal.beginScanB {s : State} (hs : s.status = .running) (hip : s.ip < s.plen) :
    (s.beginScan .scanB).ScanLegal :=
  ⟨fun _ => hs, fun _ => hip, fun _ => le_rfl, nofun, fun _ => ⟨le_rfl, Nat.le_add_right _ _⟩⟩

/-- A tick of a scan moves `sp` by 1 away from `ip` and the counter by at most 1. -/
theorem State.ScanLegal.scanMove {s t : State} (h : s.ScanLegal) (hm : ScanMove s t) : t.ScanLegal := by
  obtain ⟨hrun, hip, -, hfwd, hbwd⟩ := h
  cases hm with
  | fails => exact .of_fetch rfl
  | lands j => exact .of_fetch rfl
  | @forward i hp hi hd =>
    obtain ⟨hle, -, hdepth⟩ := hfwd hp
    have hin : s.sp + 1 < s.plen := by simpa using lt_length_of_getElem? hi
    have hnest := nest_le .jz .jnz s.depth i
    have hne : s.phase ≠ .fetch := by simp [hp]
    exact ⟨fun _ => hrun hne, fun _ => hip hne, fun _ => Nat.one_le_iff_ne_zero.mpr hd,
      fun _ => ⟨by simp; omega, hin, by simp; omega⟩, nofun⟩
  | @backward i hp hsp hi hd =>
    obtain ⟨hle, hdepth⟩ := hbwd hp
    have hnest := nest_le .jnz .jz s.depth i
    have hne : s.phase ≠ .fetch := by simp [hp]
    exact ⟨fun _ => hrun hne, fun _ => hip hne, fun _ => Nat.one_le_iff_ne_zero.mpr hd, nofun,
      fun _ => ⟨by simp; omega, by simp; omega⟩⟩

/-- A dispatching tick begins a scan on the bracket, with the counter at 1, or ends at a boundary. -/
theorem State.ScanLegal.tickDispatch {s t : State} {i : Instr} (hs : s.status = .running)
    (hp : s.phase = .fetch) (hip : s.ip < s.plen) (h : tickDispatch i s = .next t) : t.ScanLegal := by
  rcases tickDispatch_next h with ⟨_, _, rfl⟩ | ⟨_, _, rfl⟩ | heff
  · exact .beginScanF hs hip
  · exact .beginScanB hs hip
  · obtain ⟨hphase, _⟩ := heff.sameScan
    exact .of_fetch (hphase.trans hp)

theorem State.ScanLegal.tick {s t : State} (h : s.ScanLegal) (ht : tick s = .next t) : t.ScanLegal := by
  rcases tick_cases ht with ⟨_, rfl⟩ | ⟨_, hp, _, rfl⟩ | ⟨hs, hp, c, hc, hd⟩ | ⟨_, hp, rfl⟩ | ⟨_, hp, rfl⟩
  · exact h
  · exact .of_fetch hp
  · exact .tickDispatch hs hp (lt_length_of_getElem? hc) hd
  · exact h.scanMove (tickScanF_scanMove hp)
  · exact h.scanMove (tickScanB_scanMove hp)

/-- Mid-scan the scan pointer is on a character, and the counter is at least 1 and at most the number of
characters. -/
theorem State.ScanLegal.bounds {s : State} (h : s.ScanLegal) (hp : s.phase ≠ .fetch) :
    s.sp < s.plen ∧ 1 ≤ s.depth ∧ s.depth ≤ s.plen := by
  have hip := h.ip_lt hp
  have hpos := h.depth_pos hp
  cases hphase : s.phase with
  | fetch => exact absurd hphase hp
  | scanF =>
    obtain ⟨hle, hlt, hdepth⟩ := h.fwd hphase
    omega
  | scanB =>
    obtain ⟨hle, hdepth⟩ := h.bwd hphase
    omega

/-- Settles O50: `State.ScanLegal` holds at every boundary and where a scan begins, and every tick of the
scan keeps it; its distances to `ip` give the bounds. -/
theorem tickKeepsScanRegistersLegal : Obligations.TickKeepsScanRegistersLegal :=
  fun _ h => ⟨fun _ => h.tick, h.bounds⟩

end Sys2Proof.Machine

namespace Sys2Proof.Machine

/-! ### The brackets complete (43_control_flow.md R130, R131) -/

/-- Settles O22: `[` falls through at a non-zero cell, and else does what `State.jump` does with the answer
of its scan. -/
theorem jzJumpsOnZero : Obligations.JzJumpsOnZero := by
  refine fun s hc => ⟨fun hv => (Effect.jzFalls hc hv).exec_eq, fun hv => ?_⟩
  have htaken := (Effect.jzTaken hc hv).exec_eq
  exact ⟨fun j hj => by rw [htaken, hj]; rfl, fun hun => by rw [htaken, hun]; rfl⟩

/-- Settles O23: `]` falls through at a zero cell, and else does what `State.jump` does with the answer of
its scan. -/
theorem jnzJumpsOnNonzero : Obligations.JnzJumpsOnNonzero := by
  refine fun s hc => ⟨fun hv => (Effect.jnzFalls hc hv).exec_eq, fun hv => ?_⟩
  have htaken := (Effect.jnzTaken hc hv).exec_eq
  exact ⟨fun j hj => by rw [htaken, hj]; rfl, fun hun => by rw [htaken, hun]; rfl⟩

end Sys2Proof.Machine

namespace Sys2Proof.Machine

/-! ### A legal state goes on (60_exceptions.md R150, R159) -/

/-- A taken jump stays in the program where its scan, if it finds a partner, finds one there. -/
theorem State.jump_ip_le {s : State} {r : ScanResult} (hip : s.ip ≤ s.plen)
    (hr : ∀ j, r = .found j → j < s.plen) : (s.jump r).ip ≤ s.plen := by
  cases r with
  | found j => exact hr j rfl
  | unmatched => exact hip

/-- An instruction of the program leaves `ip` in 0..PLEN, fault entry included (10_state.md R26). -/
theorem Effect.ip_le {i : Instr} {s t : State} (h : Effect i s t) (hip : s.ip < s.plen) :
    t.ip ≤ s.plen := by
  cases h with
  | leftFaults => exact hip.le
  | jzTaken =>
    exact State.jump_ip_le hip.le fun j hj => by simpa using (matchFwd_found _ _ _ hj).2
  | jnzTaken =>
    exact State.jump_ip_le hip.le fun j hj => (matchBwd_found _ _ _ hj).trans hip
  | _ => exact hip

/-- The length stays within the cap: `>` tests it before it grows the tape (20_memory.md R64). -/
theorem Effect.within_cap {i : Instr} {s t : State} (h : Effect i s t)
    (hs : fitsCap s.args.tapeCap s.tape.len = true) : fitsCap s.args.tapeCap t.tape.len = true := by
  cases h with
  | rightGrows _ hcap => exact hcap
  | jzTaken => simpa using hs
  | jnzTaken => simpa using hs
  | _ => exact hs

/-- An instruction of the program keeps the state legal. -/
theorem Effect.legal {i : Instr} {s t : State} (h : Effect i s t) (hs : s.Legal)
    (hip : s.ip < s.plen) : t.Legal where
  args := h.args_eq ▸ hs.args
  tape := h.tape_legal hs.tape
  within_cap := h.args_eq ▸ h.within_cap hs.within_cap
  ip_le := by
    rw [State.plen, h.args_eq]
    exact h.ip_le hip
  boundary := h.sameScan.1.trans hs.boundary

theorem State.Legal.halt {s : State} (h : s.Legal) : s.halt.Legal :=
  ⟨h.args, h.tape, h.within_cap, h.ip_le, h.boundary⟩

/-- A step that answers a next state keeps the state legal. -/
theorem State.Legal.step {s t : State} (h : s.Legal) (hstep : step s = .next t) : t.Legal := by
  rcases step_cases s t hstep with ⟨_, rfl⟩ | ⟨_, _, rfl⟩ | ⟨_, hip, _, _, hexec⟩
  · exact h
  · exact h.halt
  · exact (Effect.of_exec hexec).legal h hip

/-- A step that is refused runs the instruction at `ip`, which is refused. -/
theorem exec_refused_of_step {s : State} {r : Refusal} (h : step s = .refused r) :
    s.status = .running ∧ ∃ i, s.program[s.ip]? = some i ∧ exec i s = .refused r := by
  by_cases hs : s.status = .running
  · cases hf : s.fetch with
    | none => simp [step_of_fetch_none hs hf] at h
    | some c => exact ⟨hs, _, program_getElem?_ip hf, step_of_fetch hs hf ▸ h⟩
  · simp [step_of_not_running hs] at h

/-- Settles O41: a next state is legal, a cursor on a cell excludes the model's own fault, and a growth of
`>` beyond the cap is the only refusal. -/
theorem legalStatesAlwaysGoOn : Obligations.LegalStatesAlwaysGoOn := by
  intro s hs
  have hc := hs.tape.cursor_lt
  cases hstep : step s with
  | next t => exact .inl ⟨t, rfl, hs.step hstep⟩
  | fault f => exact absurd hstep (step_ne_fault hc f)
  | refused r =>
    obtain ⟨hrun, i, hi, hexec⟩ := exec_refused_of_step hstep
    obtain ⟨rfl, rfl, hend, hcap⟩ := (onlyGrowthBeyondCapIsRefused i s r).mp hexec
    exact .inr ⟨rfl, hrun, hi, le_antisymm hc hend, hcap⟩

/-! ### Fault entry (60_exceptions.md R150 to R156) -/

/-- The conditions under which instruction `i` raises fault `k`. `Effect.faulted` and `FaultCause.effect`
tie it to `exec`. -/
def FaultCause (i : Instr) (s : State) (k : FaultKind) : Prop :=
  (k = .negativeTapePointer ∧ i = .left ∧ s.tape.cursor = 0) ∨
  (k = .unmatchedBracket ∧ i = .jz ∧ s.current = 0 ∧ matchFwd s.program s.ip = .unmatched) ∨
  (k = .unmatchedBracket ∧ i = .jnz ∧ s.current ≠ 0 ∧ matchBwd s.program s.ip = .unmatched)

/-- Where its cause holds, the fault is entered and changes the status alone. -/
theorem FaultCause.effect {i : Instr} {s : State} {k : FaultKind} (h : FaultCause i s k)
    (hc : s.tape.cursor < s.tape.len) : Effect i s (s.raise k) := by
  rcases h with ⟨rfl, rfl, h0⟩ | ⟨rfl, rfl, hv, hun⟩ | ⟨rfl, rfl, hv, hun⟩
  · exact .leftFaults h0
  · simpa [hun] using Effect.jzTaken hc hv
  · simpa [hun] using Effect.jnzTaken hc hv

/-- A jump of a running state that faults found no partner. -/
theorem State.jump_faulted {s : State} {r : ScanResult} {k : FaultKind} (hs : s.status = .running)
    (h : (s.jump r).status = .faulted k) : k = .unmatchedBracket ∧ r = .unmatched := by
  cases r with
  | found j => simp [hs] at h
  | unmatched => exact ⟨by simpa [eq_comm] using h, rfl⟩

/-- An instruction that takes a running state to a fault had a cause and did nothing else. -/
theorem Effect.faulted {i : Instr} {s t : State} {k : FaultKind} (h : Effect i s t)
    (hs : s.status = .running) (ht : t.status = .faulted k) : FaultCause i s k ∧ t = s.raise k := by
  cases h with
  | leftFaults h0 =>
    obtain rfl : .negativeTapePointer = k := by simpa using ht
    exact ⟨.inl ⟨rfl, rfl, h0⟩, rfl⟩
  | jzTaken _ hv =>
    obtain ⟨rfl, hun⟩ := State.jump_faulted hs ht
    exact ⟨.inr (.inl ⟨rfl, rfl, hv, hun⟩), by rw [hun, State.jump_unmatched]⟩
  | jnzTaken _ hv =>
    obtain ⟨rfl, hun⟩ := State.jump_faulted hs ht
    exact ⟨.inr (.inr ⟨rfl, rfl, hv, hun⟩), by rw [hun, State.jump_unmatched]⟩
  | _ => simp [hs] at ht

/-- Settles O33: a step in the program runs one instruction, and `FaultCause` is when that one faults. -/
theorem faultsExactlyWhenTheRulesSay : Obligations.FaultsExactlyWhenTheRulesSay := by
  intro s c k hs hf hc
  rw [step_of_fetch hs hf]
  refine ⟨⟨fun ⟨t, hexec, ht⟩ => ?_, fun hcause => ?_⟩, fun t hexec ht => ?_⟩
  · exact ((Effect.of_exec hexec).faulted hs ht).1
  · exact ⟨_, (FaultCause.effect hcause hc).exec_eq, rfl⟩
  · exact ((Effect.of_exec hexec).faulted hs ht).2

/-- No instruction has a cause to raise `InvalidByteValue`: `,` passes `set_cell` a byte (42_io.md R116). -/
theorem not_faultCause_invalidByteValue (i : Instr) (s : State) :
    ¬FaultCause i s .invalidByteValue := by
  simp [FaultCause]

/-- No step enters the fault `InvalidByteValue`. -/
theorem step_status_ne_invalidByteValue {s t : State} (h : step s = .next t)
    (hs : s.status ≠ .faulted .invalidByteValue) : t.status ≠ .faulted .invalidByteValue := by
  rcases step_cases s t h with ⟨_, rfl⟩ | ⟨_, _, rfl⟩ | ⟨hrun, _, _, _, hexec⟩
  · exact hs
  · simp
  · exact fun ht =>
      not_faultCause_invalidByteValue _ s ((Effect.of_exec hexec).faulted hrun ht).1

/-- Settles O34: the fault has no cause in any instruction, and a run begins without it. -/
theorem noProgramRaisesInvalidByte : Obligations.NoProgramRaisesInvalidByte := by
  constructor
  · intro s t hstep
    contrapose
    exact step_status_ne_invalidByteValue hstep
  · rintro a ⟨n, t, hrun, hresult⟩
    have hne := iterate_keeps (P := fun s => s.status ≠ .faulted .invalidByteValue)
      step_status_ne_invalidByteValue hrun (by simp)
    exact hne (State.status_of_result_err hresult)

end Sys2Proof.Machine

namespace Sys2Proof.Machine

/-! ### The result of a run (70_reset_and_hazards.md R184) -/

/-- A run that has reached `t` goes on as the run from `t`. -/
theorem iterate_add {f : State → Host.Outcome State Fault Refusal} {n : Nat} {s t : State}
    (h : iterate f n s = .next t) (k : Nat) : iterate f (n + k) s = iterate f k t := by
  induction n generalizing s with
  | zero =>
    obtain rfl : s = t := by simpa [iterate] using h
    rw [Nat.zero_add]
  | succ n ih =>
    obtain ⟨u, hu, hrun⟩ := iterate_succ_cases h
    rw [Nat.add_right_comm, iterate_succ f (n + k) s u hu, ih hrun]

theorem State.status_ne_running_of_result {s : State} {r : RunResult} (h : s.result = some r) :
    s.status ≠ .running := by
  intro hs
  simp [State.result, hs] at h

/-- Once a run has reached a terminal state, it is in that state after every larger number of steps. -/
theorem iterate_step_of_terminal {n m : Nat} {s t : State} (h : iterate step n s = .next t)
    (ht : t.status ≠ .running) (hnm : n ≤ m) : iterate step m s = .next t := by
  obtain ⟨k, rfl⟩ := Nat.exists_eq_add_of_le hnm
  rw [iterate_add h, (terminalStatesAbsorb t k ht).1]

/-- Settles O38: the states of two ended runs with the same arguments are both the state after the larger
number of steps, since terminal states absorb. -/
theorem runResultIsUnique : Obligations.RunResultIsUnique := by
  rintro a r r' ⟨n, s, hs, hr⟩ ⟨n', s', hs', hr'⟩
  have hlate := iterate_step_of_terminal hs (State.status_ne_running_of_result hr) (le_max_left n n')
  have hlate' := iterate_step_of_terminal hs' (State.status_ne_running_of_result hr') (le_max_right n n')
  obtain rfl : s = s' := by simpa [hlate] using hlate'
  exact Option.some_injective _ (hr.symm.trans hr')

end Sys2Proof.Machine

namespace Sys2Proof

/-! ### The decoder and the encoder (30_encoding.md R73, R74, R79) -/

/-- A row of the operator table encodes to the code it stands under. -/
theorem encode_of_mem_operatorTable {c : Code} {i : Instr} (h : (c, i) ∈ operatorTable) : encode i = c :=
  (by decide : ∀ row ∈ operatorTable, encode row.2 = row.1) (c, i) h

/-- A row of the operator table is well-formed at every allowed width. -/
theorem wf_of_mem_operatorTable {c : Code} {i : Instr} (h : (c, i) ∈ operatorTable) (w : Nat) :
    i.wf w = charWidthOk w := by
  cases i with
  | skip d => simp [operatorTable] at h
  | _ => rfl

theorem wf_skip_iff (w : Nat) (c : Code) :
    (Instr.skip c).wf w = true ↔ charWidthOk w = true ∧ c < 2 ^ w ∧ isOperatorCode c = false := by
  simp [Instr.wf, inertCodeOk]

/-- The character of a well-formed instruction fits the width. -/
theorem encode_lt {w : Nat} {i : Instr} (h : i.wf w = true) : encode i < 2 ^ w := by
  cases i with
  | skip c => exact Laws.EncodeFits.skip c w h
  | _ => exact Laws.EncodeFits.fits_of_lt w _ h (by decide)

/-- The code of a well-formed instruction is matched by that instruction's row alone. -/
theorem decodeOp_encode {w : Nat} {i : Instr} (h : i.wf w = true) : decodeOp (encode i) = i := by
  cases i with
  | skip c =>
    obtain ⟨_, _, hinert⟩ := (wf_skip_iff w c).mp h
    exact Machine.decodeOp_of_not_operator hinert
  | _ => rfl

theorem decode_encode {w : Nat} {i : Instr} (h : i.wf w = true) : decode w (encode i) = i := by
  rw [decode, opField_of_lt w _ (encode_lt h), decodeOp_encode h]

/-- A character of an allowed width decodes to a well-formed instruction. -/
theorem decode_wf {w : Nat} {c : Code} (hw : charWidthOk w = true) (hc : c < 2 ^ w) :
    (decode w c).wf w = true := by
  rw [decode, opField_of_lt w c hc]
  rcases decodeOp_cases c with hrow | ⟨hinert, hskip⟩
  · rw [wf_of_mem_operatorTable hrow, hw]
  · rw [hskip]
    exact (wf_skip_iff w c).mpr ⟨hw, hc, hinert⟩

theorem encode_decode {w : Nat} {c : Code} (hc : c < 2 ^ w) : encode (decode w c) = c := by
  rw [decode, opField_of_lt w c hc]
  rcases decodeOp_cases c with hrow | ⟨_, hskip⟩
  · exact encode_of_mem_operatorTable hrow
  · rw [hskip, encode]

/-- Settles O5: a code is in one row of the operator table, whose instruction encodes to it, or in none, and
then SKIP carries it. -/
theorem decodeEncodeAgree : Obligations.DecodeEncodeAgree :=
  fun _ hw => ⟨fun _ hi => ⟨encode_lt hi, decode_encode hi⟩,
    fun _ hc => ⟨decode_wf (decide_eq_true hw) hc, encode_decode hc⟩⟩

/-- Settles O4: the fixed codes, evaluated. -/
theorem operatorCodesDecode : Obligations.OperatorCodesDecode := by
  unfold Obligations.OperatorCodesDecode
  decide

end Sys2Proof

namespace Sys2Proof.Machine

/-! ### The step, reset and the invariant (10_state.md R33, R38; 41_dispatch_and_data.md R100, R101) -/

/-- Settles O40: the three things a step can do each keep the state legal. -/
theorem stepKeepsStateLegal : Obligations.StepKeepsStateLegal :=
  fun _ _ hs hstep => hs.step hstep

/-- Settles O1: the status is tested first, then whether there is a character at `ip`. -/
theorem stepRunsDecodedInstruction : Obligations.StepRunsDecodedInstruction :=
  fun s => ⟨fun hs _ hc => step_of_fetch hs hc,
    fun hs hip => step_of_fetch_none hs ((fetch_eq_none_iff s).mpr hip), step_of_not_running⟩

/-- Reset is the beginning of the run whose arguments are absent (log 2). -/
theorem State.reset_eq_present : State.reset = State.present RunArgs.absent := rfl

theorem Tape.sequence_fresh : Tape.fresh.sequence = [0, 0, 0, 0] := by decide

/-- Settles O2: a run begins on the fresh Tape, with every other register at the value of reset. -/
theorem resetLeavesSpecValues : Obligations.ResetLeavesSpecValues := by
  intro s h
  obtain ⟨a, rfl⟩ : ∃ a, s = State.present a := h.elim (fun hs => ⟨_, hs⟩) id
  exact ⟨Tape.sequence_fresh, rfl, rfl, rfl, rfl, rfl, rfl, rfl, rfl, rfl⟩

theorem Tape.legal_fresh : Tape.fresh.Legal :=
  ⟨Memory.wf_nil, by simp [Tape.fresh], ⟨0, rfl⟩, by decide⟩

theorem RunArgs.legal_absent : RunArgs.absent.Legal :=
  ⟨by decide, by simp [RunArgs.absent], rfl⟩

/-- A run with legal arguments begins in a legal state. -/
theorem State.legal_present {a : RunArgs} (h : a.Legal) : (State.present a).Legal :=
  ⟨h, Tape.legal_fresh, h.cap_holds, Nat.zero_le _, rfl⟩

theorem State.scanLegal_present (a : RunArgs) : (State.present a).ScanLegal := .of_fetch rfl

/-- Settles O3: the four cells of the fresh Tape are within a legal cap, and a run begins at an instruction
boundary. -/
theorem resetMeetsInvariant : Obligations.ResetMeetsInvariant :=
  ⟨State.reset_eq_present ▸ ⟨State.legal_present RunArgs.legal_absent, State.scanLegal_present _⟩,
    fun a h => ⟨State.legal_present h, State.scanLegal_present a⟩⟩

end Sys2Proof.Machine

namespace Sys2Proof.Machine

/-! ### States that agree but for the scan registers (10_state.md R20) -/

theorem sameArch_iff {s t : State} : SameArch s t ↔ ∃ p j d, t = s.setScan p j d := by
  constructor
  · exact fun h => ⟨t.phase, t.sp, t.depth, h.symm⟩
  · rintro ⟨p, j, d, rfl⟩
    rfl

theorem SameArch.refl (s : State) : SameArch s s := rfl

theorem SameArch.symm {s t : State} (h : SameArch s t) : SameArch t s := by
  obtain ⟨_, _, _, rfl⟩ := sameArch_iff.mp h
  rfl

theorem SameArch.setScan_right {s t : State} (h : SameArch s t) (p : Phase) (j d : Nat) :
    SameArch s (t.setScan p j d) := by
  obtain ⟨_, _, _, rfl⟩ := sameArch_iff.mp h
  rfl

theorem SameArch.result_eq {s t : State} (h : SameArch s t) : s.result = t.result := by
  obtain ⟨_, _, _, rfl⟩ := sameArch_iff.mp h
  rfl

theorem State.setScan_jump (s : State) (p : Phase) (j d : Nat) (r : ScanResult) :
    (s.setScan p j d).jump r = (s.jump r).setScan p j d := by
  cases r <;> rfl

/-- A jump does not see the scan registers. -/
theorem SameArch.of_setScan_jump {s u : State} {p : Phase} {j d : Nat} {r : ScanResult}
    (h : SameArch u ((s.setScan p j d).jump r)) : SameArch u (s.jump r) := by
  rw [State.setScan_jump] at h
  exact h.setScan_right (s.jump r).phase (s.jump r).sp (s.jump r).depth

theorem State.landScan_sameArch (s : State) (j : Nat) : SameArch (s.landScan j) (s.goto (j + 1)) := rfl

theorem State.failScan_sameArch (s : State) : SameArch s.failScan (s.raise .unmatchedBracket) := rfl

/-! ### The scan registers are free for a step (43_control_flow.md R133) -/

/-- Every instruction commutes with a change of the scan registers. -/
theorem Effect.setScan {i : Instr} {s t : State} (h : Effect i s t) (p : Phase) (j d : Nat) :
    Effect i (s.setScan p j d) (t.setScan p j d) := by
  cases h with
  | rightInside h => exact .rightInside h
  | rightGrows h hcap => exact .rightGrows h hcap
  | leftMoves h => exact .leftMoves h
  | leftFaults h => exact .leftFaults h
  | inc h => exact .inc h
  | dec h => exact .dec h
  | out h => exact .out h
  | inp h => exact .inp h
  | jzFalls h hv => exact .jzFalls h hv
  | jzTaken h hv => rw [← State.setScan_jump]; exact .jzTaken h hv
  | jnzFalls h hv => exact .jnzFalls h hv
  | jnzTaken h hv => rw [← State.setScan_jump]; exact .jnzTaken h hv
  | skip c => exact .skip c

theorem step_setScan {s t : State} (h : step s = .next t) (p : Phase) (j d : Nat) :
    step (s.setScan p j d) = .next (t.setScan p j d) := by
  rcases step_cases s t h with ⟨hs, rfl⟩ | ⟨hs, hip, rfl⟩ | ⟨hs, _, c, hc, hexec⟩
  · exact step_of_not_running hs
  · exact step_of_fetch_none hs ((fetch_eq_none_iff s).mpr hip)
  · have heff := (Effect.of_exec hexec).setScan p j d
    exact (step_of_fetch (s := s.setScan p j d) hs hc).trans heff.exec_eq

theorem iterate_step_setScan {n : Nat} {s t : State} (h : iterate step n s = .next t) (p : Phase)
    (j d : Nat) : iterate step n (s.setScan p j d) = .next (t.setScan p j d) := by
  induction n generalizing s with
  | zero =>
    obtain rfl : s = t := by simpa [iterate] using h
    rfl
  | succ n ih =>
    obtain ⟨u, hu, hrun⟩ := iterate_succ_cases h
    rw [iterate_succ step n _ _ (step_setScan hu p j d), ih hrun]

/-- Agreeing states go on to agreeing states, in any number of steps. -/
theorem SameArch.iterate_step {n : Nat} {s s' t : State} (h : SameArch s t)
    (hs : iterate step n s = .next s') : ∃ t', iterate step n t = .next t' ∧ SameArch s' t' := by
  obtain ⟨p, j, d, rfl⟩ := sameArch_iff.mp h
  exact ⟨_, iterate_step_setScan hs _ _ _, (SameArch.refl s').setScan_right _ _ _⟩

/-- A step begins and ends in the same phase, that of an instruction boundary. -/
theorem step_phase_eq {s t : State} (h : step s = .next t) : t.phase = s.phase :=
  step_rel (R := fun s t => t.phase = s.phase) (fun _ => rfl) (fun _ => rfl)
    (fun _ _ _ heff => heff.sameScan.1) h

/-! ### What the scan in progress has before it (43_control_flow.md R135, R136) -/

/-- The kind of bracket that increments the counter. -/
def Phase.opens : Phase → Instr
  | .fetch => .jz
  | .scanF => .jz
  | .scanB => .jnz

/-- The kind of bracket that decrements the counter. -/
def Phase.closes : Phase → Instr
  | .fetch => .jnz
  | .scanF => .jnz
  | .scanB => .jz

/-- Where the scan pointer is `k` characters further on. -/
def State.spAfter (s : State) (k : Nat) : Nat :=
  match s.phase with
  | .fetch => s.sp
  | .scanF => s.sp + k
  | .scanB => s.sp - k

/-- The characters that the scan has not looked at, the next one first. -/
def State.ahead (s : State) : List Instr :=
  match s.phase with
  | .fetch => []
  | .scanF => s.program.drop (s.sp + 1)
  | .scanB => (s.program.take s.sp).reverse

/-- The counter after the character `i`. -/
def State.counted (s : State) (i : Instr) : Nat := nest s.phase.opens s.phase.closes s.depth i

/-- How many characters the scan will pass before the partner, if it finds one. -/
def State.passed (s : State) : Option Nat := scan s.phase.opens s.phase.closes s.depth s.ahead

/-- What the scan will have found at its end. -/
def State.scanAnswer (s : State) : ScanResult :=
  match s.passed with
  | some k => .found (s.spAfter (k + 1))
  | none => .unmatched

/-- The number of ticks to the end of the scan. -/
def State.scanLength (s : State) : Nat :=
  match s.passed with
  | some k => k + 1
  | none => s.ahead.length + 1

/-- The state after a tick of the scan that goes on, with the counter at `d`. -/
def State.scanOn (s : State) (d : Nat) : State := s.setScan s.phase (s.spAfter 1) d

theorem State.ahead_scanOn {s : State} (h : s.ScanLegal) (hp : s.phase ≠ .fetch) (d : Nat) :
    (s.scanOn d).ahead = s.ahead.tail := by
  obtain ⟨hsp, _⟩ := h.bounds hp
  cases hphase : s.phase with
  | fetch => exact absurd hphase hp
  | scanF => simp [State.ahead, State.scanOn, State.spAfter, hphase]
  | scanB =>
    have hlt : s.sp < s.program.length := by simpa using hsp
    simp [State.ahead, State.scanOn, State.spAfter, hphase, List.dropLast_take hlt]

theorem State.spAfter_scanOn (s : State) (k d : Nat) : (s.scanOn d).spAfter k = s.spAfter (k + 1) := by
  cases hphase : s.phase with
  | fetch => simp [State.spAfter, State.scanOn, hphase]
  | scanF => simp [State.spAfter, State.scanOn, hphase]; omega
  | scanB => simp [State.spAfter, State.scanOn, hphase]; omega

/-- A scan with no character before it fails at the next tick. -/
theorem tick_of_ahead_nil {s : State} (h : s.ScanLegal) (hp : s.phase ≠ .fetch) (ha : s.ahead = []) :
    tick s = .next s.failScan := by
  have hs := h.running hp
  obtain ⟨hsp, _⟩ := h.bounds hp
  cases hphase : s.phase with
  | fetch => exact absurd hphase hp
  | scanF =>
    have hend : s.program[s.sp + 1]? = none := by simpa [State.ahead, hphase] using ha
    simp [tick, hs, hphase, tickScanF, hend]
  | scanB =>
    have hzero : s.sp = 0 := by
      have hlen : min s.sp s.plen = 0 := by simpa [State.ahead, hphase] using congrArg List.length ha
      omega
    simp [tick, hs, hphase, tickScanB, hzero]

/-- A scan with a character before it looks at that one in the next tick. -/
theorem tick_of_ahead_cons {s : State} {i : Instr} {l : List Instr} (h : s.ScanLegal)
    (hp : s.phase ≠ .fetch) (ha : s.ahead = i :: l) :
    tick s = .next (s.scanned s.phase (s.spAfter 1) (s.counted i)) := by
  have hs := h.running hp
  obtain ⟨hsp, _⟩ := h.bounds hp
  have hhead : s.ahead[0]? = some i := by rw [ha]; rfl
  cases hphase : s.phase with
  | fetch => exact absurd hphase hp
  | scanF =>
    have hi : s.program[s.sp + 1]? = some i := by simpa [State.ahead, hphase] using hhead
    simp [tick, hs, hphase, tickScanF, hi, State.spAfter, State.counted, Phase.opens,
      Phase.closes]
  | scanB =>
    have hlen : (s.program.take s.sp).length = s.sp := by simp [hsp.le]
    have hpos : 0 < s.sp := by
      have := congrArg List.length ha
      simp [State.ahead, hphase] at this
      omega
    have hi : s.program[s.sp - 1]? = some i := by
      simp only [State.ahead, hphase] at hhead
      rwa [List.getElem?_reverse (by omega), hlen, List.getElem?_take_of_lt (by omega)] at hhead
    simp [tick, hs, hphase, tickScanB, hi, hpos.ne', State.spAfter, State.counted, Phase.opens,
      Phase.closes]

theorem State.passed_of_nil {s : State} (ha : s.ahead = []) : s.passed = none := by
  rw [State.passed, ha, scan_nil]

theorem State.passed_of_zero {s : State} {i : Instr} {l : List Instr} (ha : s.ahead = i :: l)
    (hd : s.counted i = 0) : s.passed = some 0 := by
  rw [State.passed, ha, scan_cons]
  exact if_pos hd

/-- A character that does not end the scan leaves the answer to the rest of it. -/
theorem State.passed_of_ne_zero {s : State} {i : Instr} {l : List Instr} (h : s.ScanLegal)
    (hp : s.phase ≠ .fetch) (ha : s.ahead = i :: l) (hd : s.counted i ≠ 0) :
    s.passed = (s.scanOn (s.counted i)).passed.map (· + 1) := by
  rw [State.passed, State.passed, State.ahead_scanOn h hp, ha, scan_cons]
  exact if_neg hd

theorem State.scanAnswer_scanOn {s : State} {d : Nat} (h : s.passed = (s.scanOn d).passed.map (· + 1)) :
    (s.scanOn d).scanAnswer = s.scanAnswer := by
  rw [State.scanAnswer, State.scanAnswer, h]
  cases (s.scanOn d).passed with
  | none => rfl
  | some k => simp [State.spAfter_scanOn]

theorem State.scanLength_scanOn {s : State} {d : Nat} (h : s.passed = (s.scanOn d).passed.map (· + 1))
    (ha : s.ahead.length = (s.scanOn d).ahead.length + 1) :
    s.scanLength = (s.scanOn d).scanLength + 1 := by
  rw [State.scanLength, State.scanLength, h]
  cases (s.scanOn d).passed with
  | none => simp [ha]
  | some k => rfl

/-- A scan ends at the latest one tick after the last character before it. -/
theorem State.scanLength_le (s : State) : s.scanLength ≤ s.ahead.length + 1 := by
  unfold State.scanLength
  cases hk : s.passed with
  | none => exact le_rfl
  | some k => exact Nat.succ_le_succ (scan_lt _ _ _ _ _ hk).le

/-! ### A whole scan, tick by tick (43_control_flow.md R138) -/

/-- `ScanRun n s t`: from `s`, `n` ticks of a scan lead to `t`, every one of them in the middle of the scan.
`ScanRun.iterate_eq` and `ScanRun.midway` tie it to `tick`. -/
inductive ScanRun : Nat → State → State → Prop where
  | nil (s : State) : ScanRun 0 s s
  | cons {n : Nat} {s u t : State} (hp : s.phase ≠ .fetch) (hs : s.status = .running)
      (h : tick s = .next u) (hrun : ScanRun n u t) : ScanRun (n + 1) s t

theorem ScanRun.iterate_eq {n : Nat} {s t : State} (h : ScanRun n s t) : iterate tick n s = .next t := by
  induction h with
  | nil s => rfl
  | cons _ _ h _ ih => rw [iterate_succ _ _ _ _ h, ih]

/-- Before its end a scan is at no instruction boundary. -/
theorem ScanRun.midway {n m : Nat} {s t : State} (h : ScanRun n s t) (hm : m < n) :
    ∃ v, iterate tick m s = .next v ∧ v.phase ≠ .fetch ∧ v.status = .running := by
  induction h generalizing m with
  | nil s => omega
  | @cons n s u t hp hs h _ ih =>
    cases m with
    | zero => exact ⟨s, rfl, hp, hs⟩
    | succ m =>
      rw [iterate_succ _ _ _ _ h]
      exact ih (by omega)

/-- `n` ticks of a scan lead from `s` back to an instruction boundary, in a state that agrees with `t`. -/
def ScanEnds (n : Nat) (s t : State) : Prop := ∃ u, ScanRun n s u ∧ u.phase = .fetch ∧ SameArch u t

/-- A scan that ends at the next tick. -/
theorem ScanEnds.last {s t u : State} (hp : s.phase ≠ .fetch) (hs : s.status = .running)
    (h : tick s = .next u) (hu : u.phase = .fetch) (hsame : SameArch u t) : ScanEnds 1 s t :=
  ⟨u, .cons hp hs h (.nil u), hu, hsame⟩

theorem ScanEnds.cons {n : Nat} {s t u : State} (hp : s.phase ≠ .fetch) (hs : s.status = .running)
    (h : tick s = .next u) (hends : ScanEnds n u t) : ScanEnds (n + 1) s t := by
  obtain ⟨v, hrun, hv, hsame⟩ := hends
  exact ⟨v, .cons hp hs h hrun, hv, hsame⟩

/-- A jump at the end of a scan does not see how far the scan has come. -/
theorem ScanEnds.jump_of_scanOn {n d : Nat} {s u : State} {r : ScanResult}
    (h : ScanEnds n u ((s.scanOn d).jump r)) : ScanEnds n u (s.jump r) := by
  obtain ⟨v, hrun, hv, hsame⟩ := h
  exact ⟨v, hrun, hv, hsame.of_setScan_jump⟩

/-- A scan does what `State.jump` does with its answer, in `scanLength` ticks. -/
theorem State.ScanLegal.scanEnds {s : State} (h : s.ScanLegal) (hp : s.phase ≠ .fetch) :
    ScanEnds s.scanLength s (s.jump s.scanAnswer) := by
  have hs := h.running hp
  induction hl : s.ahead generalizing s with
  | nil =>
    rw [State.scanLength, State.scanAnswer, State.passed_of_nil hl, hl]
    exact .last hp hs (tick_of_ahead_nil h hp hl) rfl s.failScan_sameArch
  | cons i l ih =>
    have htick := tick_of_ahead_cons h hp hl
    by_cases hd : s.counted i = 0
    · rw [State.scanned, if_pos hd] at htick
      rw [State.scanLength, State.scanAnswer, State.passed_of_zero hl hd]
      exact .last hp hs htick rfl (s.landScan_sameArch _)
    · rw [State.scanned, if_neg hd, ← State.scanOn] at htick
      have hpassed := State.passed_of_ne_zero h hp hl hd
      have hahead : (s.scanOn (s.counted i)).ahead = l := by
        rw [State.ahead_scanOn h hp, hl, List.tail_cons]
      have hends := ih (h.tick htick) hp hs hahead
      rw [State.scanAnswer_scanOn hpassed] at hends
      rw [State.scanLength_scanOn hpassed (by rw [hl, hahead, List.length_cons])]
      exact .cons hp hs htick hends.jump_of_scanOn

/-! ### The dispatch (43_control_flow.md R134) -/

/-- The instruction is a bracket whose jump is taken. -/
def TakesJump (i : Instr) (s : State) : Prop :=
  s.tape.cursor < s.tape.len ∧ ((i = .jz ∧ s.current = 0) ∨ (i = .jnz ∧ s.current ≠ 0))

/-- But for the taken jumps, a tick in `FETCH` is the step. -/
theorem tickDispatch_eq_exec {i : Instr} {s : State} (h : ¬TakesJump i s) : tickDispatch i s = exec i s := by
  rcases s.tape.getCell_eq with ⟨hc, hget⟩ | ⟨_, hget⟩
  · cases i with
    | jz =>
      have hv : s.current ≠ 0 := fun hz => h ⟨hc, .inl ⟨rfl, hz⟩⟩
      simp [tickDispatch, exec, execJz, s.getCell_of_lt hc, (isZero_false_iff _).mpr hv]
    | jnz =>
      have hv : s.current = 0 := by_contra fun hne => h ⟨hc, .inr ⟨rfl, hne⟩⟩
      simp [tickDispatch, exec, execJnz, s.getCell_of_lt hc, (isZero_iff _).mpr hv]
    | _ => rfl
  · cases i with
    | jz => simp [tickDispatch, exec, execJz, hget]
    | jnz => simp [tickDispatch, exec, execJnz, hget]
    | _ => rfl

theorem tick_of_fetch {s : State} {c : Code} (hs : s.status = .running) (hp : s.phase = .fetch)
    (hf : s.fetch = some c) : tick s = tickDispatch (decode s.args.charW c) s := by
  simp [tick, tickFetch, hs, hp, hf]

theorem tick_of_fetch_none {s : State} (hs : s.status = .running) (hp : s.phase = .fetch)
    (hf : s.fetch = none) : tick s = .next s.halt := by
  simp [tick, tickFetch, hs, hp, hf]

theorem tickCost_of_not_running {s : State} (hs : s.status ≠ .running) : tickCost s = 1 := by
  cases h : s.status with
  | running => exact absurd h hs
  | halted => simp [tickCost, h]
  | faulted k => simp [tickCost, h]

theorem tickCost_of_fetch_none {s : State} (hf : s.fetch = none) : tickCost s = 1 := by
  simp [tickCost, hf]

theorem tickCost_of_not_takesJump {s : State} {c : Code} (hs : s.status = .running)
    (hf : s.fetch = some c) (h : ¬TakesJump (decode s.args.charW c) s) : tickCost s = 1 := by
  rcases s.tape.getCell_eq with ⟨hc, _⟩ | ⟨_, hget⟩
  · have hjz : ¬(decode s.args.charW c = .jz ∧ isZero s.current = true) := fun ⟨hi, hz⟩ =>
      h ⟨hc, .inl ⟨hi, (isZero_iff _).mp hz⟩⟩
    have hjnz : ¬(decode s.args.charW c = .jnz ∧ isZero s.current = false) := fun ⟨hi, hz⟩ =>
      h ⟨hc, .inr ⟨hi, (isZero_false_iff _).mp hz⟩⟩
    simp only [tickCost, hs, hf, s.getCell_of_lt hc, if_neg hjz, if_neg hjnz]
  · simp [tickCost, hs, hf, hget]

/-- `BeginsScan s p`: the tick at `s` begins a scan in phase `p`, whose answer is the step's. -/
structure BeginsScan (s : State) (p : Phase) : Prop where
  mid : p ≠ .fetch
  legal : (s.beginScan p).ScanLegal
  tick_eq : tick s = .next (s.beginScan p)
  step_eq : step s = .next (s.jump (s.beginScan p).scanAnswer)
  cost_eq : tickCost s = 1 + (s.beginScan p).scanLength
  ahead_lt : (s.beginScan p).ahead.length < s.plen

theorem State.passed_beginScanF (s : State) :
    (s.beginScan .scanF).passed = scan .jz .jnz 1 (s.program.drop (s.ip + 1)) := rfl

theorem State.passed_beginScanB (s : State) :
    (s.beginScan .scanB).passed = scan .jnz .jz 1 (s.program.take s.ip).reverse := rfl

theorem State.ahead_beginScanF_length (s : State) :
    (s.beginScan .scanF).ahead.length = s.plen - (s.ip + 1) := by
  simp [State.beginScan, State.ahead]

theorem State.ahead_beginScanB_length {s : State} (hip : s.ip < s.plen) :
    (s.beginScan .scanB).ahead.length = s.ip := by
  simp [State.beginScan, State.ahead, hip.le]

/-- The scan that `[` begins finds what `MatchFwd` answers. -/
theorem State.scanAnswer_beginScanF (s : State) :
    (s.beginScan .scanF).scanAnswer = matchFwd s.program s.ip := by
  rw [State.scanAnswer, State.passed_beginScanF, matchFwd]
  cases scan .jz .jnz 1 (s.program.drop (s.ip + 1)) with
  | none => rfl
  | some k => simp [State.beginScan, State.spAfter]; omega

/-- The scan that `]` begins finds what `MatchBwd` answers. -/
theorem State.scanAnswer_beginScanB (s : State) :
    (s.beginScan .scanB).scanAnswer = matchBwd s.program s.ip := by
  rw [State.scanAnswer, State.passed_beginScanB, matchBwd]
  cases scan .jnz .jz 1 (s.program.take s.ip).reverse with
  | none => rfl
  | some k => simp [State.beginScan, State.spAfter]; omega

theorem State.scanLength_beginScanF {s : State} (hip : s.ip < s.plen) :
    (s.beginScan .scanF).scanLength = scanTicks s.ip (s.plen - s.ip) (matchFwd s.program s.ip) := by
  rw [State.scanLength, State.ahead_beginScanF_length, State.passed_beginScanF, matchFwd]
  cases scan .jz .jnz 1 (s.program.drop (s.ip + 1)) with
  | none => simp only [scanTicks]; omega
  | some k => simp only [scanTicks]; omega

theorem State.scanLength_beginScanB {s : State} (hip : s.ip < s.plen) :
    (s.beginScan .scanB).scanLength = scanTicks s.ip (1 + s.ip) (matchBwd s.program s.ip) := by
  rw [State.scanLength, State.ahead_beginScanB_length hip, State.passed_beginScanB, matchBwd]
  cases hk : scan .jnz .jz 1 (s.program.take s.ip).reverse with
  | none => simp only [scanTicks]; omega
  | some k =>
    have hlt : k < s.ip := by simpa [hip.le] using scan_lt _ _ _ _ _ hk
    simp only [scanTicks]
    omega

theorem BeginsScan.of_jz {s : State} {c : Code} (hs : s.status = .running) (hp : s.phase = .fetch)
    (hf : s.fetch = some c) (hi : decode s.args.charW c = .jz) (hc : s.tape.cursor < s.tape.len)
    (hv : s.current = 0) : BeginsScan s .scanF := by
  have hip : s.ip < s.plen := lt_length_of_getElem? hf
  have hz := (isZero_iff _).mpr hv
  refine ⟨by simp, .beginScanF hs hip, ?_, ?_, ?_, ?_⟩
  · simp [tick_of_fetch hs hp hf, hi, tickDispatch, s.getCell_of_lt hc, hz]
  · rw [step_of_fetch hs hf, hi, State.scanAnswer_beginScanF]
    exact (Effect.jzTaken hc hv).exec_eq
  · rw [State.scanLength_beginScanF hip]
    simp [tickCost, hs, hf, hi, s.getCell_of_lt hc, hz]
  · rw [State.ahead_beginScanF_length]
    omega

theorem BeginsScan.of_jnz {s : State} {c : Code} (hs : s.status = .running) (hp : s.phase = .fetch)
    (hf : s.fetch = some c) (hi : decode s.args.charW c = .jnz) (hc : s.tape.cursor < s.tape.len)
    (hv : s.current ≠ 0) : BeginsScan s .scanB := by
  have hip : s.ip < s.plen := lt_length_of_getElem? hf
  have hz := (isZero_false_iff _).mpr hv
  refine ⟨by simp, .beginScanB hs hip, ?_, ?_, ?_, ?_⟩
  · simp [tick_of_fetch hs hp hf, hi, tickDispatch, s.getCell_of_lt hc, hz]
  · rw [step_of_fetch hs hf, hi, State.scanAnswer_beginScanB]
    exact (Effect.jnzTaken hc hv).exec_eq
  · rw [State.scanLength_beginScanB hip]
    simp [tickCost, hs, hf, hi, s.getCell_of_lt hc, hz]
  · rwa [State.ahead_beginScanB_length hip]

/-- From an instruction boundary a tick is the whole step, at the cost of 1, or it begins a scan. -/
theorem tick_eq_step_or_beginsScan {s : State} (hp : s.phase = .fetch) :
    (tick s = step s ∧ tickCost s = 1) ∨ ∃ p, BeginsScan s p := by
  by_cases hs : s.status = .running
  · cases hf : s.fetch with
    | none =>
      exact .inl ⟨(tick_of_fetch_none hs hp hf).trans (step_of_fetch_none hs hf).symm,
        tickCost_of_fetch_none hf⟩
    | some c =>
      by_cases hj : TakesJump (decode s.args.charW c) s
      · obtain ⟨hc, ⟨hi, hv⟩ | ⟨hi, hv⟩⟩ := hj
        · exact .inr ⟨_, .of_jz hs hp hf hi hc hv⟩
        · exact .inr ⟨_, .of_jnz hs hp hf hi hc hv⟩
      · refine .inl ⟨?_, tickCost_of_not_takesJump hs hf hj⟩
        rw [tick_of_fetch hs hp hf, tickDispatch_eq_exec hj, step_of_fetch hs hf]
  · exact .inl ⟨(tick_of_not_running hs).trans (step_of_not_running hs).symm, tickCost_of_not_running hs⟩

/-! ### Agreement of ticks and steps (43_control_flow.md R138) -/

/-- The ticks of one step: back at a boundary after `tickCost` of them and not before, in a state that
agrees with the step's. -/
def TicksLeadTo (s t : State) : Prop :=
  (∃ u, iterate tick (tickCost s) s = .next u ∧ u.phase = .fetch ∧ SameArch u t) ∧
  ∀ m, 0 < m → m < tickCost s →
    ∃ v, iterate tick m s = .next v ∧ v.phase ≠ .fetch ∧ v.status = .running

theorem ticksLeadTo_of_tick_eq {s t : State} (hp : s.phase = .fetch) (htick : tick s = step s)
    (hcost : tickCost s = 1) (h : step s = .next t) : TicksLeadTo s t := by
  rw [TicksLeadTo, hcost]
  refine ⟨⟨t, iterate_succ tick 0 s t (htick.trans h), (step_phase_eq h).trans hp, .refl t⟩, ?_⟩
  omega

theorem BeginsScan.ticksLeadTo {s : State} {p : Phase} (h : BeginsScan s p) :
    TicksLeadTo s (s.jump (s.beginScan p).scanAnswer) := by
  obtain ⟨u, hrun, hu, hsame⟩ := h.legal.scanEnds h.mid
  rw [TicksLeadTo, h.cost_eq, Nat.add_comm]
  refine ⟨⟨u, ?_, hu, hsame.of_setScan_jump⟩, fun m hpos hm => ?_⟩
  · rw [iterate_succ _ _ _ _ h.tick_eq, hrun.iterate_eq]
  · obtain ⟨k, rfl⟩ := Nat.exists_eq_succ_of_ne_zero hpos.ne'
    rw [iterate_succ _ _ _ _ h.tick_eq]
    exact hrun.midway (by omega)

theorem ticksLeadTo_of_step {s t : State} (hp : s.phase = .fetch) (h : step s = .next t) :
    TicksLeadTo s t := by
  obtain ⟨htick, hcost⟩ | ⟨p, hb⟩ := tick_eq_step_or_beginsScan hp
  · exact ticksLeadTo_of_tick_eq hp htick hcost h
  · obtain rfl : s.jump (s.beginScan p).scanAnswer = t := by simpa [hb.step_eq] using h
    exact hb.ticksLeadTo

theorem BeginsScan.tickCost_le {s : State} {p : Phase} (h : BeginsScan s p) : tickCost s ≤ s.plen + 1 := by
  have hlength := (s.beginScan p).scanLength_le
  have hahead := h.ahead_lt
  rw [h.cost_eq]
  omega

theorem tickCost_le {s : State} (hp : s.phase = .fetch) : tickCost s ≤ s.plen + 1 := by
  obtain ⟨_, hcost⟩ | ⟨_, hb⟩ := tick_eq_step_or_beginsScan hp
  · omega
  · exact hb.tickCost_le

/-- Where the step stops, no scan begins, so the tick is the step. -/
theorem tick_eq_step_of_stop {s : State} (hp : s.phase = .fetch) (h : ∀ t, step s ≠ .next t) :
    tick s = step s := by
  obtain ⟨htick, _⟩ | ⟨_, hb⟩ := tick_eq_step_or_beginsScan hp
  · exact htick
  · exact absurd hb.step_eq (h _)

/-- Settles O48: a tick at an instruction boundary is the step or begins the scan of a taken jump, whose
ticks walk the list of characters that `scan` recurses on. -/
theorem ticksAgreeWithStep : Obligations.TicksAgreeWithStep := by
  refine fun s hp => ⟨fun t h => ticksLeadTo_of_step hp h, tickCost_le hp, fun f h => ?_, fun r h => ?_⟩
  · rw [tick_eq_step_of_stop hp (by simp [h]), h]
  · rw [tick_eq_step_of_stop hp (by simp [h]), h]

/-! ### The result of a run by ticks (43_control_flow.md R133) -/

/-- The run from `s` by the transition `f` ends with result `r`: `Yields` and `TickYields`, from any state. -/
def EndsWith (f : State → Host.Outcome State Fault Refusal) (s : State) (r : RunResult) : Prop :=
  ∃ n t, iterate f n s = .next t ∧ t.result = some r

theorem EndsWith.of_iterate {f : State → Host.Outcome State Fault Refusal} {n : Nat} {s t : State}
    {r : RunResult} (hrun : iterate f n s = .next t) (h : EndsWith f t r) : EndsWith f s r := by
  obtain ⟨m, v, hv, hr⟩ := h
  exact ⟨n + m, v, (iterate_add hrun m).trans hv, hr⟩

/-- The result of a run by steps does not depend on the scan registers. -/
theorem EndsWith.of_sameArch {s t : State} {r : RunResult} (hsame : SameArch s t) (h : EndsWith step s r) :
    EndsWith step t r := by
  obtain ⟨n, v, hv, hr⟩ := h
  obtain ⟨w, hw, hvw⟩ := hsame.iterate_step hv
  exact ⟨n, w, hw, hvw.result_eq ▸ hr⟩

/-- A run by steps that ends gives a run by ticks with the same result: the ticks of each step. -/
theorem endsWith_tick_of_step {n : Nat} {s v : State} {r : RunResult} (hp : s.phase = .fetch)
    (hv : iterate step n s = .next v) (hr : v.result = some r) : EndsWith tick s r := by
  induction n generalizing s v with
  | zero =>
    obtain rfl : s = v := by simpa [iterate] using hv
    exact ⟨0, s, rfl, hr⟩
  | succ n ih =>
    obtain ⟨t, hstep, hrun⟩ := iterate_succ_cases hv
    obtain ⟨⟨u, hticks, hu, hsame⟩, _⟩ := ticksLeadTo_of_step hp hstep
    obtain ⟨w, hw, hvw⟩ := hsame.symm.iterate_step hrun
    exact .of_iterate hticks (ih hu hw (hvw.result_eq ▸ hr))

theorem tickCost_pos {s : State} (hp : s.phase = .fetch) : 0 < tickCost s := by
  obtain ⟨_, hcost⟩ | ⟨_, hb⟩ := tick_eq_step_or_beginsScan hp
  · omega
  · have := hb.cost_eq
    omega

/-- A run by ticks that ends has a first tick, which did not stop, so the step does not stop. -/
theorem exists_step_of_tick_run {n : Nat} {s v : State} {r : RunResult} (hp : s.phase = .fetch)
    (hs : s.status = .running) (hv : iterate tick n s = .next v) (hr : v.result = some r) :
    ∃ t, step s = .next t := by
  cases n with
  | zero =>
    obtain rfl : s = v := by simpa [iterate] using hv
    exact absurd hs (State.status_ne_running_of_result hr)
  | succ n =>
    obtain ⟨u, hu, _⟩ := iterate_succ_cases hv
    by_contra hstop
    exact hstop ⟨u, tick_eq_step_of_stop hp (fun t ht => hstop ⟨t, ht⟩) ▸ hu⟩

/-- A run by ticks that ends is at a boundary where it ends, so it holds the whole of its first step. -/
theorem tickCost_le_of_result {n : Nat} {s t v : State} {r : RunResult} (hs : s.status = .running)
    (hlead : TicksLeadTo s t) (hv : iterate tick n s = .next v) (hr : v.result = some r) :
    tickCost s ≤ n := by
  have hend := State.status_ne_running_of_result hr
  by_contra hlt
  rcases Nat.eq_zero_or_pos n with rfl | hpos
  · obtain rfl : s = v := by simpa [iterate] using hv
    exact hend hs
  · obtain ⟨w, hw, _, hrunning⟩ := hlead.2 n hpos (by omega)
    obtain rfl : v = w := by simpa [hv] using hw
    exact hend hrunning

/-- A run by ticks that ends gives a run by steps with the same result. -/
theorem endsWith_step_of_tick {n : Nat} {s v : State} {r : RunResult} (hp : s.phase = .fetch)
    (hv : iterate tick n s = .next v) (hr : v.result = some r) : EndsWith step s r := by
  induction n using Nat.strong_induction_on generalizing s with
  | _ n ih =>
    by_cases hs : s.status = .running
    · obtain ⟨t, hstep⟩ := exists_step_of_tick_run hp hs hv hr
      have hlead := ticksLeadTo_of_step hp hstep
      obtain ⟨k, rfl⟩ := Nat.exists_eq_add_of_le (tickCost_le_of_result hs hlead hv hr)
      obtain ⟨⟨u, hticks, hu, hsame⟩, _⟩ := hlead
      have hpos := tickCost_pos hp
      have hsteps := ih k (by omega) hu (iterate_add hticks k ▸ hv)
      exact .of_iterate (iterate_succ step 0 s t hstep) (.of_sameArch hsame hsteps)
    · obtain rfl : s = v := by simpa [(terminalStatesAbsorb s n hs).2] using hv
      exact ⟨0, s, rfl, hr⟩

/-- Settles O49: cut at its instruction boundaries, a run by ticks is a run by steps but for the scan
registers, which no step and no result reads. -/
theorem tickRunsGiveTheSameResult : Obligations.TickRunsGiveTheSameResult :=
  fun _ _ => ⟨fun ⟨_, _, hv, hr⟩ => endsWith_step_of_tick rfl hv hr,
    fun ⟨_, _, hv, hr⟩ => endsWith_tick_of_step rfl hv hr⟩

end Sys2Proof.Machine
